-- ==== Sys2Proof/Word.lean ====
section
/-! DEFINITION. The word types of the HSR core and the binary64 datum (spec 00_scope.md R14, R16). -/

namespace Sys2Proof

/-- An 8-bit byte. -/
abbrev Byte := BitVec 8

/-- `u32` of R14. -/
abbrev Word32 := BitVec 32

/-- `u64` of R14. -/
abbrev Word64 := BitVec 64

/-- The sixteen 32-bit words of the Mixing Primitive's matrix, row-major (R102, R103). -/
abbrev Matrix := Vector Word32 16

/-- The vector whose entry `i` is `f i`. -/
def tabulate {α : Type} (n : Nat) (f : Nat → α) : Vector α n :=
  ⟨((List.range n).map f).toArray, by simp⟩

/-- A binary64 datum (R16): the fields of its 64-bit pattern, with every NaN pattern one `nan`, since no rule depends on
the payload or sign of a NaN (R140). DESIGN CHOICE, log 15. `fin neg e f` has sign bit `neg`, exponent field `e`
(0 to 2046) and fraction field `f`. -/
inductive F64 where
  | nan
  | inf (neg : Bool)
  | fin (neg : Bool) (e : Fin 2047) (f : BitVec 52)
  deriving DecidableEq, Repr, Inhabited

/-- `+0.0`. -/
abbrev F64.zero : F64 := .fin false 0 0#52

/-- `1.0`. -/
abbrev F64.one : F64 := .fin false 1023 0#52

/-- `2.0`. -/
abbrev F64.two : F64 := .fin false 1024 0#52

end Sys2Proof
end

