-- ==== Sys2Proof/Syntax.lean ====
section
/-! DEFINITION. The twelve commands of the HSR core, one constructor per row of spec/opcode_table.json. -/

namespace Sys2Proof

/-- A command (30_encoding.md R72). A command word carries no register field, mode field or immediate (R79), so no
constructor has an argument: operands come from `A0` and `A1` (R71). -/
inductive Instr where
  | seed
  | generate
  | nextU32
  | nextF64
  | mix
  | zipfInitAlpha
  | zipfInitTheta
  | zipfDraw
  | rekey
  | scramble
  | disableAccel
  | maybeEnableAccel
  deriving DecidableEq, Repr, Inhabited

end Sys2Proof
end

