-- ==== Sys2Proof/WellFormed.lean ====
section
/-! DEFINITION. When a command word is one of the twelve (spec 30_encoding.md R70, R72, R73). An `Instr` has no field, so
well-formedness is a matter of the word alone. -/

namespace Sys2Proof

/-- The operation codes of R72. -/
def assignedOpcs : List (BitVec 8) :=
  [0x01, 0x02, 0x03, 0x04, 0x05, 0x10, 0x11, 0x12, 0x20, 0x21, 0x30, 0x31]

/-- Field `ZERO`, bits 31:8, is all zero (R70). -/
def zeroFieldOk (w : Word32) : Bool := w.extractLsb' 8 24 == 0

/-- Field `OPC`, bits 7:0, is in the table of R72. -/
def opcOk (w : Word32) : Bool := assignedOpcs.contains (w.extractLsb' 0 8)

/-- The word is one of the twelve of R72 (R73). -/
def wordWellFormed (w : Word32) : Bool := zeroFieldOk w && opcOk w

/-- Every command is well formed: it has no field that could hold a wrong value (R79). -/
def Instr.wellFormed : Instr → Bool
  | .seed => true
  | .generate => true
  | .nextU32 => true
  | .nextF64 => true
  | .mix => true
  | .zipfInitAlpha => true
  | .zipfInitTheta => true
  | .zipfDraw => true
  | .rekey => true
  | .scramble => true
  | .disableAccel => true
  | .maybeEnableAccel => true

end Sys2Proof
end

