-- ==== Sys2Proof/Decode.lean ====
section
/-! DEFINITION. The decoder of command words, total on every 32-bit word, and the encoder (spec 30_encoding.md R70 to R75). -/

namespace Sys2Proof

/-- Why a word is no command (R73). Both reasons are ILLEGAL_COMMAND to the host. -/
inductive DecodeError where
  /-- Bits 31:8 are not all zero. -/
  | nonzeroReserved
  /-- Bits 31:8 are zero and `OPC` is not in the table. -/
  | unassignedOpcode (opc : BitVec 8)
  deriving DecidableEq, Repr

/-- The opcode map of R72. -/
def commandOfOpc (opc : BitVec 8) : Option Instr :=
  match opc.toNat with
  | 0x01 => some .seed
  | 0x02 => some .generate
  | 0x03 => some .nextU32
  | 0x04 => some .nextF64
  | 0x05 => some .mix
  | 0x10 => some .zipfInitAlpha
  | 0x11 => some .zipfInitTheta
  | 0x12 => some .zipfDraw
  | 0x20 => some .rekey
  | 0x21 => some .scramble
  | 0x30 => some .disableAccel
  | 0x31 => some .maybeEnableAccel
  | _ => none

/-- The command a word written to `CMD` selects: the whole word is matched (R72), every other word is illegal (R73). -/
def decode (w : Word32) : Except DecodeError Instr :=
  if zeroFieldOk w then
    match commandOfOpc (w.extractLsb' 0 8) with
    | some i => .ok i
    | none => .error (.unassignedOpcode (w.extractLsb' 0 8))
  else .error .nonzeroReserved

/-- The `OPC` value of a command (R72). -/
def opcOf : Instr → BitVec 8
  | .seed => 0x01
  | .generate => 0x02
  | .nextU32 => 0x03
  | .nextF64 => 0x04
  | .mix => 0x05
  | .zipfInitAlpha => 0x10
  | .zipfInitTheta => 0x11
  | .zipfDraw => 0x12
  | .rekey => 0x20
  | .scramble => 0x21
  | .disableAccel => 0x30
  | .maybeEnableAccel => 0x31

/-- The word of a command: `ZERO` in bits 31:8, `OPC` in bits 7:0 (R70). -/
def encode (i : Instr) : Word32 := (0 : BitVec 24) ++ opcOf i

/-- The command word whose bits are `w`, of which the low `nbits` count (a command is one 32-bit word, R75, and there is no
fetch byte order to apply, R67; log 17). -/
def commandWord (nbits w : Nat) : Word32 := BitVec.ofNat 32 (w % 2 ^ nbits)

/-- What the decoder reads from the command whose bits, numbered as spec/opcode_table.json numbers them, are `w`. -/
def decodeTableWord (nbits w : Nat) : Option Instr := (decode (commandWord nbits w)).toOption

end Sys2Proof
end

