-- ==== Sys2Proof/Config.lean ====
section
/-! DEFINITION. The configuration: the parameters of spec 00_scope.md R10 marked `config`, and the values the spec leaves
open. The decided values of the parameters stand in Machine/Params.lean (log 16). -/

namespace Sys2Proof

/-- The tables of the scrambler: 18 subkeys `P` and four S-boxes `S` (R30). INIT_TABLE (R190) has this type too. -/
structure Tables where
  p : Vector Word32 18
  s : Vector (Vector Word32 256) 4
  deriving DecidableEq, Repr

/-- MIX_CORE: the state layout of the Mixing Primitive and two of its rounds (R102, R103, R107). -/
structure MixCore where
  /-- The initial matrix of the constants and a counter (R103). -/
  initial : Vector Word32 4 → Word64 → Matrix
  /-- Two rounds (R107). -/
  doubleRound : Matrix → Matrix

/-- HALF_ASSIGN: which bits of a value start as the half `A` that is fed to `F` (R172, 90_conflicts.md C3). -/
inductive HalfAssign where
  | highIsA
  | lowIsA
  deriving DecidableEq, Repr

/-- KEY_BYTE_ORDER: which byte of the bijection key is byte 0 (R174, D29). -/
inductive KeyByteOrder where
  | msbFirst
  | lsbFirst
  deriving DecidableEq, Repr

/-- REKEY_CHAIN: what each schedule encryption takes as its input (R174, 90_conflicts.md C2). -/
inductive RekeyChain where
  | previousOutput
  | zeroBlock
  deriving DecidableEq, Repr

/-- HOST_MEM as the platform supplies it: a byte-addressed store of which the core sees only whether a write is taken (R10,
R58; log 6). The bytes the core has written to it are in State (log 5). -/
structure HostMem where
  /-- The platform refuses a write at the address. -/
  refuses : Word64 → Bool

/-- The parameters of R10 marked `config`, but for HOST_BUS (log 18). They are parameters of the step function and no state
(R13). -/
structure Config where
  mixCore : MixCore
  /-- MIX_ROUNDS: even, at least 2. -/
  mixRounds : Nat
  /-- MIX_SIGMA. -/
  mixSigma : Vector Word32 4
  /-- BUF_LAYOUT: the lane and the byte of its block that stand at a byte of the buffer (R121). -/
  bufLayout : Nat → Fin 4 × Fin 64
  /-- SEED_EXPAND (R122). -/
  seedExpand : Word64 → Word64
  /-- ALPHA_MAP: `theta` from `alpha` (R144). -/
  alphaMap : F64 → F64
  /-- POW64 (R141). -/
  pow64 : F64 → F64 → F64
  halfAssign : HalfAssign
  /-- ROUND_FORM: the sixteen rounds, un-swap and whitening on `(A, B)`, from `F` and the subkeys (R173). -/
  roundForm : (Word32 → Word32) → Vector Word32 18 → Word32 × Word32 → Word32 × Word32
  /-- F_FORM: the combination of the four S-box outputs (R171). -/
  fForm : Word32 → Word32 → Word32 → Word32 → Word32
  keyByteOrder : KeyByteOrder
  rekeyChain : RekeyChain
  /-- INIT_TABLE (R190). -/
  initTable : Tables
  /-- HW_ACCEL_PRESENT: the result of the capability probe (R196; log 13). -/
  hwAccelPresent : Bool
  /-- HOST_MEM (R50, R58; log 6). -/
  hostMem : HostMem

/-- What R10 asks of MIX_ROUNDS. -/
abbrev Config.RoundsOk (cfg : Config) : Prop := cfg.mixRounds % 2 = 0 ∧ 2 ≤ cfg.mixRounds

/-- Free value: HW_ACCEL_PRESENT of the model's own platform, a Boolean (R10, R196; log 13). -/
opaque Config.openHwAccel : Bool

/-- Free value: the part of POW64 that properties P1 to P4 of R141 leave open (log 14). -/
opaque Config.openPow : F64 → F64 → F64

/-- Free value: the sign and payload of a quiet NaN written as a bit pattern (R140, 93_implementation_defined.md U17;
log 15). -/
opaque Config.nanPayload : Word64

/-- Free value: the `k`-th integer drawn where the spec gives none (logs 10 and 11). -/
opaque Config.freeWord : Nat → Word64

/-- Free value: the `k`-th binary64 drawn where the spec gives none (log 11). -/
opaque Config.freeF64 : Nat → F64

end Sys2Proof
end

