-- ==== Sys2Proof/Machine/Float.lean ====
section
/-! DEFINITION. Binary64 arithmetic (spec 00_scope.md R16, 42_zipf.md R140) and POW64 (R141).

A finite binary64 is an integer multiple of 2^-1074, so each operation computes its exact result with integers in units of
2^-1074 and narrows once at the end: `roundScaled` rounds to nearest, ties to even. -/

namespace Sys2Proof.Machine

/-- The exponent of the unit: the least positive binary64 is `2^-1074`. -/
def unitExp : Nat := 1074

/-- The magnitude of a finite datum in units of `2^-1074`. -/
def scaled (e : Fin 2047) (f : BitVec 52) : Nat :=
  if e.val = 0 then f.toNat else (2 ^ 52 + f.toNat) * 2 ^ (e.val - 1)

/-- The value of a finite datum in units of `2^-1074`. -/
def scaledInt (neg : Bool) (e : Fin 2047) (f : BitVec 52) : Int :=
  if neg then -(scaled e f : Int) else (scaled e f : Int)

/-- The datum of sign `neg` and magnitude `k` units, for a `k` of at most 53 significant bits; infinity where `k` is past the
greatest finite magnitude. -/
def packScaled (neg : Bool) (k : Nat) : F64 :=
  if k < 2 ^ 52 then .fin neg 0 (BitVec.ofNat 52 k)
  else
    let sh := Nat.log2 k - 52
    if h : sh + 1 < 2047 then .fin neg ⟨sh + 1, h⟩ (BitVec.ofNat 52 (k / 2 ^ sh)) else .inf neg

/-- The magnitude, in units, that `num / den` units round to: the nearest multiple of a quantum that leaves 53 significant
bits (or of the unit itself, below `2^53` units), ties to the even multiple (R16, R140). -/
def roundNearest (num den : Nat) : Nat :=
  let sh := Nat.log2 (num / den) - 52
  let d := den * 2 ^ sh
  let q := num / d
  let r := num % d
  (if d < 2 * r ∨ (2 * r = d ∧ q % 2 = 1) then q + 1 else q) * 2 ^ sh

/-- The binary64 nearest to `num / den` units, ties to even, with sign `neg` (R16, R140). -/
def roundScaled (neg : Bool) (num den : Nat) : F64 := packScaled neg (roundNearest num den)

/-- `f64_of_bits` (R16): sign in bit 63, exponent in bits 62:52, fraction in bits 51:0. -/
def f64OfBits (w : Word64) : F64 :=
  let neg := w.getLsbD 63
  let e := (w.extractLsb' 52 11).toNat
  let f := w.extractLsb' 0 52
  if h : e < 2047 then .fin neg ⟨e, h⟩ f
  else if f = 0 then .inf neg
  else .nan

/-- `bits` (R16). A NaN has a quiet pattern whose sign and payload are a free value (R140; log 15); no command writes one to
a register (93_implementation_defined.md U17). -/
def bitsOf : F64 → Word64
  | .nan => (Config.nanPayload &&& 0x8007FFFFFFFFFFFF) ||| 0x7FF8000000000000
  | .inf neg => BitVec.ofBool neg ++ (2047 : BitVec 11) ++ (0 : BitVec 52)
  | .fin neg e f => BitVec.ofBool neg ++ BitVec.ofNat 11 e.val ++ f

/-- The datum is a NaN. -/
def isNan : F64 → Bool
  | .nan => true
  | .inf _ => false
  | .fin _ _ _ => false

/-- The datum is finite. -/
def isFinite : F64 → Bool
  | .nan => false
  | .inf _ => false
  | .fin _ _ _ => true

/-- The datum is `+0.0` or `-0.0`. -/
def isZero : F64 → Bool
  | .nan => false
  | .inf _ => false
  | .fin _ e f => scaled e f == 0

/-- The negation: the sign bit inverted. -/
def fneg : F64 → F64
  | .nan => .nan
  | .inf neg => .inf (!neg)
  | .fin neg e f => .fin (!neg) e f

/-- `fadd` (R16, R140). An exact zero is `+0.0` unless both operands have the sign bit set. -/
def fadd : F64 → F64 → F64
  | .nan, _ => .nan
  | _, .nan => .nan
  | .inf n, .inf n' => if n = n' then .inf n else .nan
  | .inf n, .fin _ _ _ => .inf n
  | .fin _ _ _, .inf n => .inf n
  | .fin n e f, .fin n' e' f' =>
    let sum := scaledInt n e f + scaledInt n' e' f'
    if sum = 0 then packScaled (n && n') 0 else roundScaled (sum < 0) sum.natAbs 1

/-- `fsub` (R16, R140): `x - y = x + (-y)`. -/
def fsub (x y : F64) : F64 := fadd x (fneg y)

/-- `fmul` (R16, R140). -/
def fmul : F64 → F64 → F64
  | .nan, _ => .nan
  | _, .nan => .nan
  | .inf n, .inf n' => .inf (n != n')
  | .inf n, .fin n' e f => if scaled e f = 0 then .nan else .inf (n != n')
  | .fin n e f, .inf n' => if scaled e f = 0 then .nan else .inf (n != n')
  | .fin n e f, .fin n' e' f' => roundScaled (n != n') (scaled e f * scaled e' f') (2 ^ unitExp)

/-- `fdiv` (R16, R140). -/
def fdiv : F64 → F64 → F64
  | .nan, _ => .nan
  | _, .nan => .nan
  | .inf _, .inf _ => .nan
  | .inf n, .fin n' _ _ => .inf (n != n')
  | .fin n _ _, .inf n' => packScaled (n != n') 0
  | .fin n e f, .fin n' e' f' =>
    if scaled e' f' = 0 then (if scaled e f = 0 then .nan else .inf (n != n'))
    else roundScaled (n != n') (scaled e f * 2 ^ unitExp) (scaled e' f')

/-- `f64_of_u64` (R16): the nearest binary64 to an unsigned integer, ties to even. -/
def f64OfU64 (k : Nat) : F64 := roundScaled false (k * 2 ^ unitExp) 1

/-- `ffloor` (R16): the largest integral binary64 not above a finite operand. -/
def ffloor : F64 → F64
  | .nan => .nan
  | .inf neg => .inf neg
  | .fin neg e f => packScaled neg ((scaledInt neg e f / (2 ^ unitExp : Int)).natAbs * 2 ^ unitExp)

/-- The integer a non-negative integral binary64 stands for ("as integer", R145). -/
def natOfF64 : F64 → Nat
  | .fin false e f => scaled e f / 2 ^ unitExp
  | .fin true _ _ => 0
  | .nan => 0
  | .inf _ => 0

/-- The ordered comparison `x < y` (R16): false where an operand is a NaN. -/
def flt : F64 → F64 → Bool
  | .nan, _ => false
  | _, .nan => false
  | .inf n, .inf n' => n && !n'
  | .inf n, .fin _ _ _ => n
  | .fin _ _ _, .inf n' => !n'
  | .fin n e f, .fin n' e' f' => decide (scaledInt n e f < scaledInt n' e' f')

/-- The ordered comparison `x >= y` (R16): false where an operand is a NaN. -/
def fge (x y : F64) : Bool := !isNan x && !isNan y && !flt x y

/-- The datum `m * 2^-53` (R125); exact for `m < 2^53`. -/
def f64OfFraction53 (m : Nat) : F64 := roundScaled false (m * 2 ^ (unitExp - 53)) 1

/-- A datum that is not a NaN and is `>= +0.0`: the operand itself where it is one already (so that P4 of R141 excludes
nothing else; log 14). -/
def nonNegative : F64 → F64
  | .nan => .inf false
  | .inf _ => .inf false
  | .fin neg e f => if scaled e f = 0 then .fin neg e f else .fin false e f

/-- POW64 (R141): open but for the four properties. P1: exponent `±0.0` gives `1.0`. P2: base `1.0` gives `1.0`. P3:
exponent `1.0` gives the base. P4: a finite base above zero and a finite exponent give no NaN and nothing below `+0.0`. All
else is the free value `Config.openPow` (log 14). -/
def pow64 (x y : F64) : F64 :=
  if isZero y then F64.one
  else if x = F64.one then F64.one
  else if y = F64.one then x
  else if isFinite x && flt F64.zero x && isFinite y then nonNegative (Config.openPow x y)
  else Config.openPow x y

end Sys2Proof.Machine
end

