-- ==== Sys2Proof/Machine/State.lean ====
section
/-! DEFINITION. The state of one HSR core (spec 10_state.md R20), what it has written to the host data space, the host's
transactions still to come, and the reasons a step can stop. Plain data throughout; the parameters of the step are in
Config (00_scope.md R13). -/

namespace Sys2Proof.Machine

/-- The errors a command can end in (60_exceptions.md R211); an error is a next state, never a stop (R17, R210). -/
inductive CmdError where
  | illegalCommand
  | notInitialised
  | domainError
  deriving DecidableEq, Repr

/-- `DCTL.MODE` (R33, R196). -/
inductive DispatchMode where
  | undetermined
  | portable
  | accelerated
  deriving DecidableEq, Repr

/-- The dispatch flag, the pair (`DCTL.MODE`, `DCTL.DISABLED`) of R196. `DCTL.PRESENT` is hardwired to a parameter (R33) and is
no state. -/
structure Dctl where
  mode : DispatchMode
  disabled : Bool
  deriving DecidableEq, Repr

/-- The generator context (R24 to R27). The bound of the cursor (R26) is in its type. -/
structure Gen where
  valid : Bool
  counter : Word64
  cursor : Fin 257
  buffer : Vector Byte 256
  deriving DecidableEq, Repr

/-- The Zipf context (R28, R29). -/
structure Zipf where
  valid : Bool
  n : Word64
  theta : F64
  alphaExp : F64
  zetan : F64
  zeta2 : F64
  eta : F64
  deriving DecidableEq, Repr

/-- The scrambler context (R30, R31): the valid bit, `P` and `S`. -/
structure Key where
  valid : Bool
  tables : Tables
  deriving DecidableEq, Repr

/-- The bytes the core has written to HOST_MEM so far (R50, R52). HOST_MEM itself is a parameter (R13, `Config.hostMem`): an
address not listed holds what the platform left there, which has no value here (log 5). -/
structure Memory where
  cells : List Host.Cell
  deriving DecidableEq, Repr

/-- The canonical form: addresses strictly rising, all below 2^64. Every listed byte differs from what an unlisted address
reads as, since an unlisted address reads as no value. -/
abbrev Memory.wf (m : Memory) : Prop :=
  m.cells.Pairwise (fun x y => x.1 < y.1) ∧ ∀ c ∈ m.cells, c.1 < 2 ^ 64

/-- The 64-bit host registers (R21). -/
inductive Reg64 where
  | a0
  | a1
  | r0
  deriving DecidableEq, Repr

/-- The 32-bit host registers (R21). -/
inductive Reg32 where
  | cmd
  | status
  | dctl
  deriving DecidableEq, Repr

/-- A host register (R21), accessed whole at its own width (R67). -/
inductive HostReg where
  | r64 (r : Reg64)
  | r32 (r : Reg32)
  deriving DecidableEq, Repr

/-- What can reach the core from outside: the host's transactions (R77) and the platform's RESET (R230; log 12). -/
inductive HostInput where
  /-- `WR reg, value` on a 64-bit register. -/
  | wr64 (r : Reg64) (v : Word64)
  /-- `WR reg, value` on a 32-bit register. -/
  | wr32 (r : Reg32) (v : Word32)
  /-- `RD reg`. -/
  | rd (r : HostReg)
  /-- RESET is asserted and released. -/
  | reset
  deriving DecidableEq, Repr

/-- The state. `a0` to `key` are the core's (R13, R20); `written`, `inputs`, `replies` and `freeCount` are the model's own
(logs 5, 8, 9, 10). `CMD` holds no state (R38). -/
structure State where
  /-- `A0` (R21, R22). -/
  a0 : Word64
  /-- `A1` (R21, R22). -/
  a1 : Word64
  /-- `R0` (R21, R22). -/
  r0 : Word64
  /-- `STATUS.ERR` (R32): `none` is OK. -/
  err : Option CmdError
  /-- `STATUS.ERR_STICKY` (R32). -/
  errSticky : Bool
  /-- `DCTL.MODE` and `DCTL.DISABLED` (R33, R196). -/
  dctl : Dctl
  /-- `GEN` (R24 to R27); `gen.valid` is `STATUS.GEN_VALID`. -/
  gen : Gen
  /-- `ZIPF` (R28, R29); `zipf.valid` is `STATUS.ZIPF_VALID`. -/
  zipf : Zipf
  /-- `KEY` (R30, R31); `key.valid` is `STATUS.KEY_VALID`. -/
  key : Key
  /-- What the core has written to HOST_MEM (R52, R56; log 5). -/
  written : Memory
  /-- The host transactions and RESET pulses still to come, oldest first (R77; log 8). -/
  inputs : List HostInput
  /-- What the host's reads have returned, oldest first (R77; log 9). -/
  replies : List (HostReg × Word64)
  /-- How many free values have been drawn (log 10). -/
  freeCount : Nat
  deriving DecidableEq, Repr

/-- Why a step stops. -/
inductive Fault where
  /-- Raised by GENERATE and MIX where the platform refuses the write of a byte at `addr`: the command has no step, no byte
  is dropped silently and no error code is invented (R58, 93_implementation_defined.md U4). Safe: the model stops where the
  spec gives the core no step. -/
  | hostMemRefused (addr : Word64)
  deriving DecidableEq, Repr

/-- Why an instruction has no meaning. -/
inductive Refusal where
  /-- Raised by `exec` for a command without a meaning in this model; no arm of this model raises it. Safe. -/
  | notModelled (mnemonic : String)
  deriving DecidableEq, Repr

/-- The state right after reset (R36, R230). The spec gives no value to `A0`, `A1`, `R0`, to the contexts behind cleared
valid bits, or to `P` and `S`: they are zero here, DESIGN CHOICE (logs 1 to 4). -/
def State.reset : State where
  a0 := 0
  a1 := 0
  r0 := 0
  err := none
  errSticky := false
  dctl := { mode := .undetermined, disabled := false }
  gen := { valid := false, counter := 0, cursor := 0, buffer := Vector.replicate 256 0 }
  zipf := { valid := false, n := 0, theta := F64.zero, alphaExp := F64.zero, zetan := F64.zero, zeta2 := F64.zero,
            eta := F64.zero }
  key := { valid := false,
           tables := { p := Vector.replicate 18 0, s := Vector.replicate 4 (Vector.replicate 256 0) } }
  written := { cells := [] }
  inputs := []
  replies := []
  freeCount := 0

end Sys2Proof.Machine
end

