-- ==== Sys2Proof/Machine/Ops.lean ====
section
/-! DEFINITION. The named operations over the state: updates, HOST_MEM, the error entry shared by every command. -/

namespace Sys2Proof.Machine

/-- The command ends OK (R17): `STATUS.ERR <- 0`; `ERR_STICKY` keeps its value (R32). -/
def setOk (s : State) : State := { s with err := none }

/-- `R0 <- v` (R15, R22). -/
def setR0 (v : Word64) (s : State) : State := { s with r0 := v }

/-- `A0 <- v`, a host write (R22). -/
def setA0 (v : Word64) (s : State) : State := { s with a0 := v }

/-- `A1 <- v`, a host write (R22). -/
def setA1 (v : Word64) (s : State) : State := { s with a1 := v }

/-- The generator context becomes `g`. -/
def setGen (g : Gen) (s : State) : State := { s with gen := g }

/-- The Zipf context becomes `z`. -/
def setZipf (z : Zipf) (s : State) : State := { s with zipf := z }

/-- The scrambler context becomes `k`. -/
def setKey (k : Key) (s : State) : State := { s with key := k }

/-- The dispatch flag becomes `d`. -/
def setDctl (d : Dctl) (s : State) : State := { s with dctl := d }

/-- What has been written to HOST_MEM becomes `m`. -/
def setWritten (m : Memory) (s : State) : State := { s with written := m }

/-- The inputs still to come become `is`. -/
def setInputs (is : List HostInput) (s : State) : State := { s with inputs := is }

/-- The next free integer is drawn. -/
def drawFree (s : State) : Word64 × State := (Config.freeWord s.freeCount, { s with freeCount := s.freeCount + 1 })

/-- A Zipf context whose valid bit is 0 and whose other fields are unspecified (R147): free values from the `k`-th on
(log 11). -/
def unspecifiedZipf (k : Nat) : Zipf where
  valid := false
  n := Config.freeWord k
  theta := Config.freeF64 (k + 1)
  alphaExp := Config.freeF64 (k + 2)
  zetan := Config.freeF64 (k + 3)
  zeta2 := Config.freeF64 (k + 4)
  eta := Config.freeF64 (k + 5)

/-- `raise E` (R214), the one way a command ends in error: `STATUS.ERR <- code(E)`, `ERR_STICKY <- 1`, and for DOMAIN_ERROR
only `ZIPF.valid <- 0`, the other Zipf fields becoming unspecified (`DomainFail()`, R147). Nothing is saved, control goes
nowhere (R210), and there is no return operation: the next command runs normally (R216). -/
def raiseError (e : CmdError) (s : State) : State :=
  match e with
  | .illegalCommand => { s with err := some .illegalCommand, errSticky := true }
  | .notInitialised => { s with err := some .notInitialised, errSticky := true }
  | .domainError =>
    { s with err := some .domainError, errSticky := true, zipf := unspecifiedZipf s.freeCount,
             freeCount := s.freeCount + 6 }

/-- The byte last written at an address of a cell list; none where nothing has been written (log 5). -/
def readCells (a : Nat) : List Host.Cell → Option Byte
  | [] => none
  | c :: rest => if c.1 = a then some c.2 else readCells a rest

/-- The byte at an address of HOST_MEM, for the host and for statements: no command reads HOST_MEM (R50). -/
def Memory.read (m : Memory) (a : Word64) : Option Byte := readCells a.toNat m.cells

/-- A cell list with one byte written, in canonical form again. -/
def insertCell (a : Nat) (b : Byte) : List Host.Cell → List Host.Cell
  | [] => [(a, b)]
  | c :: rest =>
    if a < c.1 then (a, b) :: c :: rest
    else if a = c.1 then (a, b) :: rest
    else c :: insertCell a b rest

/-- `MemWrite(addr, 1, b)` (R52): none where the platform refuses it (R58). -/
def Memory.write (cfg : Config) (m : Memory) (a : Word64) (b : Byte) : Option Memory :=
  if cfg.hostMem.refuses a then none else some { cells := insertCell a.toNat b m.cells }

/-- `MemWrite` of consecutive bytes in ascending order, addresses modulo 2^64 (R52, R66). The error is the address of the
first refused byte. -/
def Memory.writeBytes (cfg : Config) (m : Memory) (a : Word64) : List Byte → Except Word64 Memory
  | [] => .ok m
  | b :: rest =>
    match m.write cfg a b with
    | some m' => m'.writeBytes cfg (a + 1) rest
    | none => .error a

end Sys2Proof.Machine
end

