-- ==== Sys2Proof/Machine/Operands.lean ====
section
/-! DEFINITION. Operand and result forms (spec 30_encoding.md R71), bit fields and byte orders (00_scope.md R14,
20_memory.md R53, R54). -/

namespace Sys2Proof.Machine

/-- `rotl32(v, c)` for `0 < c < 32` (R14). -/
def rotl32 (v : Word32) (c : Nat) : Word32 := (v <<< c) ||| (v >>> (32 - c))

/-- `v[31:0]`. -/
def lo32 (v : Word64) : Word32 := v.extractLsb' 0 32

/-- `v[63:32]`. -/
def hi32 (v : Word64) : Word32 := v.extractLsb' 32 32

/-- `{hi, lo}` (R14). -/
def concat32 (hi lo : Word32) : Word64 := hi ++ lo

/-- Byte `t` of a word, `w[8t+7:8t]`: bytes of the stream are little-endian (R53). -/
def byteLE (w : Word32) (t : Nat) : Byte := w.extractLsb' (8 * t) 8

/-- The word whose bytes, least significant first, are given (R25, R53). -/
def wordLE (b0 b1 b2 b3 : Byte) : Word32 := b3 ++ b2 ++ b1 ++ b0

/-- `{b0, b1, b2, b3}`: a word from bytes, most significant first (R174 step 2). -/
def wordBE (b0 b1 b2 b3 : Byte) : Word32 := b0 ++ b1 ++ b2 ++ b3

/-- An integer operand in `A0` (R71). -/
def intA0 (s : State) : Word64 := s.a0

/-- An integer operand in `A1` (R71). -/
def intA1 (s : State) : Word64 := s.a1

/-- A binary64 operand in `A1`: its 64-bit pattern (R71). -/
def f64A1 (s : State) : F64 := f64OfBits s.a1

/-- A 32-bit result: zero-extended into `R0` (R71). -/
def resultU32 (w : Word32) (s : State) : State := setR0 (w.setWidth 64) s

/-- A 64-bit integer result in `R0` (R71). -/
def resultU64 (v : Word64) (s : State) : State := setR0 v s

/-- A binary64 result: its 64-bit pattern in `R0` (R71). -/
def resultF64 (d : F64) (s : State) : State := setR0 (bitsOf d) s

/-- The command reads `A0` (R71). -/
def readsA0 : Instr → Bool
  | .seed => true
  | .generate => true
  | .nextU32 => false
  | .nextF64 => false
  | .mix => true
  | .zipfInitAlpha => true
  | .zipfInitTheta => true
  | .zipfDraw => false
  | .rekey => true
  | .scramble => true
  | .disableAccel => false
  | .maybeEnableAccel => false

/-- The command reads `A1` (R71). -/
def readsA1 : Instr → Bool
  | .seed => false
  | .generate => true
  | .nextU32 => false
  | .nextF64 => false
  | .mix => true
  | .zipfInitAlpha => true
  | .zipfInitTheta => true
  | .zipfDraw => false
  | .rekey => false
  | .scramble => false
  | .disableAccel => false
  | .maybeEnableAccel => false

/-- The command writes a result to `R0` (R22, R71). -/
def writesR0 : Instr → Bool
  | .seed => false
  | .generate => false
  | .nextU32 => true
  | .nextF64 => true
  | .mix => false
  | .zipfInitAlpha => false
  | .zipfInitTheta => false
  | .zipfDraw => true
  | .rekey => false
  | .scramble => true
  | .disableAccel => false
  | .maybeEnableAccel => false

end Sys2Proof.Machine
end

