-- ==== Sys2Proof/Machine/FeistelFunction.lean ====
section
/-! DEFINITION. The scrambler's round function and cipher (spec 43_scrambler.md R171 to R173), pure functions of the
configuration and the tables. -/

namespace Sys2Proof.Machine

/-- F_FORM as decided (R171): `((S0[a] +_32 S1[b]) xor S2[c]) +_32 S3[d]`, from the four looked-up words. -/
def addXorAdd (w0 w1 w2 w3 : Word32) : Word32 := ((w0 + w1) ^^^ w2) + w3

/-- The entry of an S-box at a byte; every byte is in range (R51). -/
def sboxEntry (box : Vector Word32 256) (i : Byte) : Word32 := box[i.toNat]'i.isLt

/-- `F(x)` (R171): one look-up in each S-box, the most significant byte in `S[0]`. -/
def feistelF (cfg : Config) (t : Tables) (x : Word32) : Word32 :=
  cfg.fForm (sboxEntry t.s[0] (x.extractLsb' 24 8)) (sboxEntry t.s[1] (x.extractLsb' 16 8))
    (sboxEntry t.s[2] (x.extractLsb' 8 8)) (sboxEntry t.s[3] (x.extractLsb' 0 8))

/-- One round of R173: the subkey into `A`, `F(A)` into `B`, the swap. -/
def feistelRound (f : Word32 → Word32) (ab : Word32 × Word32) (subkey : Word32) : Word32 × Word32 :=
  let a := ab.1 ^^^ subkey
  let b := ab.2 ^^^ f a
  (b, a)

/-- ROUND_FORM as decided (R173): sixteen rounds with `P[0]` to `P[15]`, the last swap undone, the whitening of `B` with
`P[16]` and of `A` with `P[17]`. -/
def classicalRounds (f : Word32 → Word32) (p : Vector Word32 18) (ab : Word32 × Word32) : Word32 × Word32 :=
  let swapped := (p.toList.take 16).foldl (feistelRound f) ab
  (swapped.2 ^^^ p[17], swapped.1 ^^^ p[16])

/-- The halves `(A, B)` of a value (R172). -/
def splitHalves (h : HalfAssign) (v : Word64) : Word32 × Word32 :=
  match h with
  | .highIsA => (hi32 v, lo32 v)
  | .lowIsA => (lo32 v, hi32 v)

/-- The value of the halves `(A, B)` (R172). -/
def joinHalves (h : HalfAssign) (ab : Word32 × Word32) : Word64 :=
  match h with
  | .highIsA => concat32 ab.1 ab.2
  | .lowIsA => concat32 ab.2 ab.1

/-- `Encrypt(v)` (R173). -/
def encrypt (cfg : Config) (t : Tables) (v : Word64) : Word64 :=
  joinHalves cfg.halfAssign (cfg.roundForm (feistelF cfg t) t.p (splitHalves cfg.halfAssign v))

end Sys2Proof.Machine
end

