-- ==== Sys2Proof/Machine/MixFunction.lean ====
section
/-! DEFINITION. The Mixing Primitive (spec 40_mixing.md R100 to R109): a pure function of a counter and the configuration. -/

namespace Sys2Proof.Machine

/-- `QR` (R104), the four results in the order `z0, z1, z2, z3`. -/
def quarterRound (y0 y1 y2 y3 : Word32) : Vector Word32 4 :=
  let z1 := y1 ^^^ rotl32 (y0 + y3) 7
  let z2 := y2 ^^^ rotl32 (z1 + y0) 9
  let z3 := y3 ^^^ rotl32 (z2 + z1) 13
  let z0 := y0 ^^^ rotl32 (z3 + z2) 18
  #v[z0, z1, z2, z3]

/-- `ColumnRound` (R105). -/
def columnRound (x : Matrix) : Matrix :=
  let p := quarterRound x[0] x[4] x[8] x[12]
  let q := quarterRound x[5] x[9] x[13] x[1]
  let r := quarterRound x[10] x[14] x[2] x[6]
  let t := quarterRound x[15] x[3] x[7] x[11]
  #v[p[0], q[3], r[2], t[1],
     p[1], q[0], r[3], t[2],
     p[2], q[1], r[0], t[3],
     p[3], q[2], r[1], t[0]]

/-- `RowRound` (R106). -/
def rowRound (x : Matrix) : Matrix :=
  let p := quarterRound x[0] x[1] x[2] x[3]
  let q := quarterRound x[5] x[6] x[7] x[4]
  let r := quarterRound x[10] x[11] x[8] x[9]
  let t := quarterRound x[15] x[12] x[13] x[14]
  #v[p[0], p[1], p[2], p[3],
     q[3], q[0], q[1], q[2],
     r[2], r[3], r[0], r[1],
     t[1], t[2], t[3], t[0]]

/-- `DoubleRound` (R107). -/
def doubleRound (x : Matrix) : Matrix := rowRound (columnRound x)

/-- The initial matrix `x0` (R103): the constants on the diagonal, the counter in words 8 and 9, zero elsewhere. -/
def initialMatrix (sigma : Vector Word32 4) (c : Word64) : Matrix :=
  #v[sigma[0], 0, 0, 0,
     0, sigma[1], 0, 0,
     lo32 c, hi32 c, sigma[2], 0,
     0, 0, 0, sigma[3]]

/-- `f` applied `n` times. -/
def iterate {α : Type} (f : α → α) : Nat → α → α
  | 0, x => x
  | n + 1, x => iterate f n (f x)

/-- `x[i] +_32 y[i]` for the sixteen words (R108). -/
def addMatrix (x y : Matrix) : Matrix :=
  #v[x[0] + y[0], x[1] + y[1], x[2] + y[2], x[3] + y[3],
     x[4] + y[4], x[5] + y[5], x[6] + y[6], x[7] + y[7],
     x[8] + y[8], x[9] + y[9], x[10] + y[10], x[11] + y[11],
     x[12] + y[12], x[13] + y[13], x[14] + y[14], x[15] + y[15]]

/-- `MixWords(c)` (R109): the initial matrix, the rounds, the feed-forward (R102). It takes no dispatch flag (R101). -/
def mixWords (cfg : Config) (c : Word64) : Matrix :=
  let x0 := cfg.mixCore.initial cfg.mixSigma c
  addMatrix (iterate cfg.mixCore.doubleRound (cfg.mixRounds / 2) x0) x0

/-- Byte `k` of a block of sixteen words: byte `4j + t` is byte `t` of word `j` (R53, R108). -/
def blockByte (z : Matrix) (k : Fin 64) : Byte := byteLE (z[k.val / 4]'(by omega)) (k.val % 4)

/-- `Mix(c)` (R108): the 64 bytes in order. -/
def mixBytes (cfg : Config) (c : Word64) : List Byte :=
  let z := mixWords cfg c
  (List.range 64).map (fun k => blockByte z (Fin.ofNat 64 k))

end Sys2Proof.Machine
end

