-- ==== Sys2Proof/Machine/Params.lean ====
section
/-! DEFINITION. The values the spec decides for the parameters of 00_scope.md R10 (log 16). -/

namespace Sys2Proof.Machine

/-- BUF_LAYOUT, word-interleaved (R121): byte `4w + t` of the buffer is byte `t` of word `w div 4` of lane `w mod 4`. -/
def wordInterleaved (i : Nat) : Fin 4 × Fin 64 :=
  (Fin.ofNat 4 (i / 4), Fin.ofNat 64 (4 * (i / 16) + i % 4))

/-- ALPHA_MAP (R144): `theta = 1 - 1/alpha`. -/
def thetaOfAlpha (alpha : F64) : F64 := fsub F64.one (fdiv F64.one alpha)

/-- SEED_EXPAND (R122): the identity. -/
def directSeed (seed : Word64) : Word64 := seed

/-- MIX_SIGMA (R103). -/
def mixSigma : Vector Word32 4 := #v[0x61707865, 0x3320646E, 0x79622D32, 0x6B206574]

/-- The decided configuration of the HSR core (R10) on a platform: the two arguments are what the spec leaves to the platform,
HW_ACCEL_PRESENT and the writes HOST_MEM refuses. -/
def configOn (present : Bool) (refuses : Word64 → Bool) : Config where
  mixCore := { initial := initialMatrix, doubleRound := doubleRound }
  mixRounds := 20
  mixSigma := mixSigma
  bufLayout := wordInterleaved
  seedExpand := directSeed
  alphaMap := thetaOfAlpha
  pow64 := pow64
  halfAssign := .highIsA
  roundForm := classicalRounds
  fForm := addXorAdd
  keyByteOrder := .msbFirst
  rekeyChain := .previousOutput
  initTable := initTable
  hwAccelPresent := present
  hostMem := { refuses := refuses }

/-- The configuration `exec` and `step` run with: HW_ACCEL_PRESENT has no value (log 13), and no write is refused (DESIGN CHOICE,
log 6). -/
def config : Config := configOn Config.openHwAccel (fun _ => false)

end Sys2Proof.Machine
end

