-- ==== Sys2Proof/Machine/Scrambler.lean ====
section
/-! DEFINITION. The Scrambler (spec 43_scrambler.md): the key schedule, and REKEY and SCRAMBLE. -/

namespace Sys2Proof.Machine

/-- Key byte `kb[j]` (R54, R174): with the most significant byte first, `k[63-8j : 56-8j]`. -/
def keyByte (order : KeyByteOrder) (k : Word64) (j : Nat) : Byte :=
  match order with
  | .msbFirst => k.extractLsb' (56 - 8 * j) 8
  | .lsbFirst => k.extractLsb' (8 * j) 8

/-- The word that step 2 of R174 XORs into `P[i]`: four key bytes, cyclically. -/
def keyWord (order : KeyByteOrder) (k : Word64) (i : Nat) : Word32 :=
  wordBE (keyByte order k ((4 * i) % 8)) (keyByte order k ((4 * i + 1) % 8))
    (keyByte order k ((4 * i + 2) % 8)) (keyByte order k ((4 * i + 3) % 8))

/-- Steps 1 and 2 of R174: the frozen table, with the key XORed into `P`. -/
def keyedTables (cfg : Config) (k : Word64) : Tables :=
  { cfg.initTable with
    p := Vector.ofFn (fun i : Fin 18 => cfg.initTable.p[i] ^^^ keyWord cfg.keyByteOrder k i.val) }

/-- The next output of the schedule, from the tables as they stand and the last output (REKEY_CHAIN, R174 step 3). -/
def scheduleBlock (cfg : Config) (t : Tables) (d : Word64) : Word64 :=
  match cfg.rekeyChain with
  | .previousOutput => encrypt cfg t d
  | .zeroBlock => encrypt cfg t 0

/-- One pass of step 3 over `P` (R174): words `2i` and `2i + 1`. -/
def scheduleP (cfg : Config) (td : Tables × Word64) (i : Fin 9) : Tables × Word64 :=
  let d := scheduleBlock cfg td.1 td.2
  ({ td.1 with p := (td.1.p.set (2 * i.val) (hi32 d)).set (2 * i.val + 1) (lo32 d) }, d)

/-- One pass of step 3 over S-box `b` (R174): entries `2i` and `2i + 1`. -/
def scheduleS (cfg : Config) (b : Fin 4) (td : Tables × Word64) (i : Fin 128) : Tables × Word64 :=
  let d := scheduleBlock cfg td.1 td.2
  let box := (td.1.s[b].set (2 * i.val) (hi32 d)).set (2 * i.val + 1) (lo32 d)
  ({ td.1 with s := td.1.s.set b.val box }, d)

/-- The tables of a key (R174): nine passes over `P`, then 128 over each S-box in turn, 521 in all. -/
def keySchedule (cfg : Config) (k : Word64) : Tables :=
  let afterP := (List.finRange 9).foldl (scheduleP cfg) (keyedTables cfg k, 0)
  ((List.finRange 4).foldl (fun td b => (List.finRange 128).foldl (scheduleS cfg b) td) afterP).1

/-- REKEY (R174), on a configuration. The key itself is not kept (R31). -/
def rekeyWith (cfg : Config) (s : State) : Host.Outcome State Fault Refusal :=
  .next (setOk (setKey { valid := true, tables := keySchedule cfg (intA0 s) } s))

/-- REKEY (R174). -/
def execRekey (s : State) : Host.Outcome State Fault Refusal := rekeyWith config s

/-- SCRAMBLE (R175), on a configuration. -/
def scrambleWith (cfg : Config) (s : State) : Host.Outcome State Fault Refusal :=
  if s.key.valid then .next (setOk (resultU64 (encrypt cfg s.key.tables (intA0 s)) s))
  else .next (raiseError .notInitialised s)

/-- SCRAMBLE (R175). -/
def execScramble (s : State) : Host.Outcome State Fault Refusal := scrambleWith config s

end Sys2Proof.Machine
end

