-- ==== Sys2Proof/Machine/DispatchControl.lean ====
section
/-! DEFINITION. Dispatch Control (spec 45_dispatch.md): the lazy probe and the commands DISABLE_ACCEL and
MAYBE_ENABLE_ACCEL. -/

namespace Sys2Proof.Machine

/-- `Probe()` (R197). -/
def probe (cfg : Config) (d : Dctl) : Dctl :=
  { d with mode := if !d.disabled && cfg.hwAccelPresent then .accelerated else .portable }

/-- `DispatchTouch()` on the flag (R197). -/
def touchDctl (cfg : Config) (d : Dctl) : Dctl :=
  match d.mode with
  | .undetermined => probe cfg d
  | .portable => d
  | .accelerated => d

/-- `DispatchTouch()` (R197). -/
def dispatchTouch (cfg : Config) (s : State) : State := setDctl (touchDctl cfg s.dctl) s

/-- DISABLE_ACCEL (R198). -/
def execDisableAccel (s : State) : Host.Outcome State Fault Refusal :=
  .next (setOk (setDctl { s.dctl with disabled := true, mode := .portable } s))

/-- MAYBE_ENABLE_ACCEL (R200), on a configuration: probes whatever `MODE` was. -/
def maybeEnableAccelWith (cfg : Config) (s : State) : Host.Outcome State Fault Refusal :=
  .next (setOk (setDctl (probe cfg s.dctl) s))

/-- MAYBE_ENABLE_ACCEL (R200). -/
def execMaybeEnableAccel (s : State) : Host.Outcome State Fault Refusal := maybeEnableAccelWith config s

end Sys2Proof.Machine
end

