-- ==== Sys2Proof/Machine/Mixing.lean ====
section
/-! DEFINITION. The command MIX (spec 40_mixing.md R110). -/

namespace Sys2Proof.Machine

/-- MIX (R110), on a configuration: the 64 bytes of `Mix(A0)` to `A1` upwards. It needs no context. A
refused byte gives it no step (R58). -/
def mixWith (cfg : Config) (s : State) : Host.Outcome State Fault Refusal :=
  match s.written.writeBytes cfg (intA1 s) (mixBytes cfg (intA0 s)) with
  | .ok m => .next (setOk (setWritten m (dispatchTouch cfg s)))
  | .error a => .fault (.hostMemRefused a)

/-- MIX (R110). -/
def execMix (s : State) : Host.Outcome State Fault Refusal := mixWith config s

end Sys2Proof.Machine
end

