-- ==== Sys2Proof/Machine/Generator.lean ====
section
/-! DEFINITION. The Generator Core (spec 41_generator.md): Refill, the draws, and SEED, GENERATE, NEXT_U32, NEXT_F64. -/

namespace Sys2Proof.Machine

/-- The 256 bytes a refill from the counter `c` lays into the buffer (R121): the four lanes are `MixWords` of `c` to
`c +_64 3`, laid out by BUF_LAYOUT. -/
def fillBuffer (cfg : Config) (c : Word64) : Vector Byte 256 :=
  let lanes := #v[mixWords cfg c, mixWords cfg (c + 1), mixWords cfg (c + 2), mixWords cfg (c + 3)]
  tabulate 256 (fun i => blockByte (lanes[(cfg.bufLayout i).1]) (cfg.bufLayout i).2)

/-- The generator context after `Refill()` (R121). -/
def refillGen (cfg : Config) (g : Gen) : Gen :=
  { g with buffer := fillBuffer cfg g.counter, counter := g.counter + 4, cursor := 0 }

/-- `Refill()` (R121). -/
def refill (cfg : Config) (s : State) : State :=
  let s1 := dispatchTouch cfg s
  setGen (refillGen cfg s1.gen) s1

/-- `if GEN.cursor = 256 then Refill()` (R121: only then, and only immediately before a read). -/
def refillIfExhausted (cfg : Config) (s : State) : State :=
  if s.gen.cursor.val = 256 then refill cfg s else s

/-- `buffer[i]`; the draws read it with `i < 256` only (R51). -/
def bufByte (g : Gen) (i : Nat) : Byte := g.buffer[i % 256]'(Nat.mod_lt _ (by decide))

/-- `bufword(w)` (R25). -/
def bufWord (g : Gen) (w : Nat) : Word32 :=
  wordLE (bufByte g (4 * w)) (bufByte g (4 * w + 1)) (bufByte g (4 * w + 2)) (bufByte g (4 * w + 3))

/-- The cursor moved to `c`; the draws move it to `c <= 256` only (R26). -/
def moveCursor (c : Nat) (s : State) : State := setGen { s.gen with cursor := Fin.ofNat 257 c } s

/-- `NextByte()` (R128). -/
def nextByte (cfg : Config) (s : State) : Byte × State :=
  let s1 := refillIfExhausted cfg s
  (bufByte s1.gen s1.gen.cursor.val, moveCursor (s1.gen.cursor.val + 1) s1)

/-- U32_ALIGN (R124): the cursor rounded up to a multiple of 4. -/
def alignCursor (s : State) : State := moveCursor (4 * ((s.gen.cursor.val + 3) / 4)) s

/-- The word NEXT_U32 returns, with its cursor effects (R124). -/
def nextWord (cfg : Config) (s : State) : Word32 × State :=
  let s1 := refillIfExhausted cfg (alignCursor s)
  (bufWord s1.gen (s1.gen.cursor.val / 4), moveCursor (s1.gen.cursor.val + 4) s1)

/-- `({hi, lo})[63:11]` (R125). -/
def fraction53 (hi lo : Word32) : Nat := ((concat32 hi lo).extractLsb' 11 53).toNat

/-- `NextF64()` (R125): two word draws, the first one high. -/
def nextDouble (cfg : Config) (s : State) : F64 × State :=
  let d1 := nextWord cfg s
  let d2 := nextWord cfg d1.2
  (f64OfFraction53 (fraction53 d1.1 d2.1), d2.2)

/-- The loop of GENERATE (R123): `n` bytes of the stream to `a` upwards, modulo 2^64 (R66). The error is the address of the
first refused byte. -/
def generateBytes (cfg : Config) : Nat → Word64 → State → Except Word64 State
  | 0, _, s => .ok s
  | n + 1, a, s =>
    let d := nextByte cfg s
    match d.2.written.write cfg a d.1 with
    | some m => generateBytes cfg n (a + 1) (setWritten m d.2)
    | none => .error a

/-- SEED (R122), on a configuration: direct assignment, the buffer kept. -/
def seedWith (cfg : Config) (s : State) : Host.Outcome State Fault Refusal :=
  .next (setOk (setGen { s.gen with valid := true, counter := cfg.seedExpand (intA0 s), cursor := 256 } s))

/-- SEED (R122). -/
def execSeed (s : State) : Host.Outcome State Fault Refusal := seedWith config s

/-- GENERATE (R123), on a configuration. -/
def generateWith (cfg : Config) (s : State) : Host.Outcome State Fault Refusal :=
  if s.gen.valid then
    match generateBytes cfg (intA1 s).toNat (intA0 s) s with
    | .ok t => .next (setOk t)
    | .error a => .fault (.hostMemRefused a)
  else .next (raiseError .notInitialised s)

/-- GENERATE (R123). -/
def execGenerate (s : State) : Host.Outcome State Fault Refusal := generateWith config s

/-- NEXT_U32 (R124), on a configuration. -/
def nextU32With (cfg : Config) (s : State) : Host.Outcome State Fault Refusal :=
  if s.gen.valid then
    let d := nextWord cfg s
    .next (setOk (resultU32 d.1 d.2))
  else .next (raiseError .notInitialised s)

/-- NEXT_U32 (R124). -/
def execNextU32 (s : State) : Host.Outcome State Fault Refusal := nextU32With config s

/-- NEXT_F64 (R125), on a configuration. -/
def nextF64With (cfg : Config) (s : State) : Host.Outcome State Fault Refusal :=
  if s.gen.valid then
    let d := nextDouble cfg s
    .next (setOk (resultF64 d.1 d.2))
  else .next (raiseError .notInitialised s)

/-- NEXT_F64 (R125). -/
def execNextF64 (s : State) : Host.Outcome State Fault Refusal := nextF64With config s

end Sys2Proof.Machine
end

