-- ==== Sys2Proof/Machine/ZipfSampler.lean ====
section
/-! DEFINITION. The Zipfian Sampler (spec 42_zipf.md): initialisation, Rank, and ZIPF_INIT_ALPHA, ZIPF_INIT_THETA,
ZIPF_DRAW. -/

namespace Sys2Proof.Machine

/-- `theta >= 0.0 and theta < 1.0` (R142): a NaN fails both. -/
def thetaOk (theta : F64) : Bool := fge theta F64.zero && flt theta F64.one

/-- ZETA_ORDER (R142): the sum of `POW64(f64_of_u64(i), nt)` for `i = 1` to `n` ascending, from `+0.0`. -/
def zetaSum (pow : F64 → F64 → F64) (nt : F64) : Nat → F64
  | 0 => F64.zero
  | k + 1 => fadd (zetaSum pow nt k) (pow (f64OfU64 (k + 1)) nt)

/-- `zeta2` (R142): the two-term sum. -/
def zetaTwo (pow : F64 → F64 → F64) (nt : F64) : F64 :=
  fadd (fadd F64.zero (pow F64.one nt)) (pow F64.two nt)

/-- `eta` (R142). -/
def zipfEta (pow : F64 → F64 → F64) (nf oneMinusTheta zetan zeta2 : F64) : F64 :=
  fdiv (fsub F64.one (pow (fdiv F64.two nf) oneMinusTheta)) (fsub F64.one (fdiv zeta2 zetan))

/-- The context that `ZipfInit(n, theta)` writes when every check has passed (R142). -/
def zipfContext (cfg : Config) (n : Word64) (theta : F64) : Zipf :=
  let nt := fsub F64.zero theta
  let zetan := zetaSum cfg.pow64 nt n.toNat
  let zeta2 := zetaTwo cfg.pow64 nt
  let oneMinusTheta := fsub F64.one theta
  { valid := true
    n := n
    theta := theta
    alphaExp := fdiv F64.one oneMinusTheta
    zetan := zetan
    zeta2 := zeta2
    eta := zipfEta cfg.pow64 (f64OfU64 n.toNat) oneMinusTheta zetan zeta2 }

/-- `ZipfInit(n, theta)` (R142) with `DomainFail()` (R147). -/
def zipfInit (cfg : Config) (n : Word64) (theta : F64) (s : State) : State :=
  if n = 0 then raiseError .domainError s
  else if thetaOk theta then setOk (setZipf (zipfContext cfg n theta) s)
  else raiseError .domainError s

/-- `Rank(u)` (R145): the fast path, the closed form, the clamps. -/
def rank (cfg : Config) (z : Zipf) (u : F64) : Word64 :=
  let uz := fmul u z.zetan
  if flt uz F64.one then 1
  else if flt uz z.zeta2 then 2
  else
    let nf := f64OfU64 z.n.toNat
    let base := fadd (fsub (fmul z.eta u) z.eta) F64.one
    let v := fmul nf (cfg.pow64 base z.alphaExp)
    if fge v nf then z.n
    else if fge v F64.zero then BitVec.ofNat 64 (min (1 + natOfF64 (ffloor v)) z.n.toNat)
    else 1

/-- ZIPF_INIT_ALPHA (R144), on a configuration: `n = 0` is rejected first, then `theta` comes from `alpha`. -/
def zipfInitAlphaWith (cfg : Config) (s : State) : Host.Outcome State Fault Refusal :=
  .next (if intA0 s = 0 then raiseError .domainError s
         else zipfInit cfg (intA0 s) (cfg.alphaMap (f64A1 s)) s)

/-- ZIPF_INIT_ALPHA (R144). -/
def execZipfInitAlpha (s : State) : Host.Outcome State Fault Refusal := zipfInitAlphaWith config s

/-- ZIPF_INIT_THETA (R143), on a configuration. -/
def zipfInitThetaWith (cfg : Config) (s : State) : Host.Outcome State Fault Refusal :=
  .next (zipfInit cfg (intA0 s) (f64A1 s) s)

/-- ZIPF_INIT_THETA (R143). -/
def execZipfInitTheta (s : State) : Host.Outcome State Fault Refusal := zipfInitThetaWith config s

/-- ZIPF_DRAW (R146), on a configuration. -/
def zipfDrawWith (cfg : Config) (s : State) : Host.Outcome State Fault Refusal :=
  if s.gen.valid && s.zipf.valid then
    let d := nextDouble cfg s
    .next (setOk (resultU64 (rank cfg s.zipf d.1) d.2))
  else .next (raiseError .notInitialised s)

/-- ZIPF_DRAW (R146). -/
def execZipfDraw (s : State) : Host.Outcome State Fault Refusal := zipfDrawWith config s

end Sys2Proof.Machine
end

