-- ==== Sys2Proof/Machine/Dispatch.lean ====
section
/-! DEFINITION. One arm per command of the opcode table. -/

namespace Sys2Proof.Machine

def exec (i : Instr) (s : State) : Host.Outcome State Fault Refusal :=
  match i with
  | .seed => Sys2Proof.Machine.execSeed s
  | .generate => Sys2Proof.Machine.execGenerate s
  | .nextU32 => Sys2Proof.Machine.execNextU32 s
  | .nextF64 => Sys2Proof.Machine.execNextF64 s
  | .mix => Sys2Proof.Machine.execMix s
  | .zipfInitAlpha => Sys2Proof.Machine.execZipfInitAlpha s
  | .zipfInitTheta => Sys2Proof.Machine.execZipfInitTheta s
  | .zipfDraw => Sys2Proof.Machine.execZipfDraw s
  | .rekey => Sys2Proof.Machine.execRekey s
  | .scramble => Sys2Proof.Machine.execScramble s
  | .disableAccel => Sys2Proof.Machine.execDisableAccel s
  | .maybeEnableAccel => Sys2Proof.Machine.execMaybeEnableAccel s

end Sys2Proof.Machine
end

