-- ==== Sys2Proof/Machine/Flags.lean ====
section
/-! DEFINITION. The status and control words the host reads (spec 10_state.md R32, R33). The core has no condition codes
(R34): the only flags a command sets are `STATUS.ERR` and `STATUS.ERR_STICKY`, by `setOk` and `raiseError` of Ops.lean. -/

namespace Sys2Proof.Machine

/-- The code of `STATUS.ERR` (R211). -/
def errCode : Option CmdError → BitVec 4
  | none => 0
  | some .illegalCommand => 1
  | some .notInitialised => 2
  | some .domainError => 3

/-- `STATUS` (R32): reserved 31:8, `ERR_STICKY` 7, `KEY_VALID` 6, `ZIPF_VALID` 5, `GEN_VALID` 4, `ERR` 3:0. -/
def statusWord (s : State) : Word32 :=
  (0 : BitVec 24) ++ BitVec.ofBool s.errSticky ++ BitVec.ofBool s.key.valid ++ BitVec.ofBool s.zipf.valid ++
    BitVec.ofBool s.gen.valid ++ errCode s.err

/-- The encoding of `DCTL.MODE` (R33). -/
def modeCode : DispatchMode → BitVec 2
  | .undetermined => 0
  | .portable => 1
  | .accelerated => 2

/-- `DCTL` (R33): reserved 31:4, `PRESENT` 3, `DISABLED` 2, `MODE` 1:0. `PRESENT` is hardwired to HW_ACCEL_PRESENT. -/
def dctlWord (cfg : Config) (d : Dctl) : Word32 :=
  (0 : BitVec 28) ++ BitVec.ofBool cfg.hwAccelPresent ++ BitVec.ofBool d.disabled ++ modeCode d.mode

end Sys2Proof.Machine
end

