-- ==== Sys2Proof/Machine/HostPort.lean ====
section
/-! DEFINITION. The host port: what each host transaction does (spec 10_state.md R21, R22, R38; 30_encoding.md R77) and
RESET (70_reset_and_hazards.md R230). `run` is what a decoded command does, `cfg` the parameters it does it with. -/

namespace Sys2Proof.Machine

/-- The index of a host register (R21). -/
def regIndex : HostReg → Nat
  | .r64 .a0 => 0
  | .r64 .a1 => 1
  | .r64 .r0 => 2
  | .r32 .cmd => 3
  | .r32 .status => 4
  | .r32 .dctl => 5

/-- The host register of an index (R21): six, no more. -/
def regOfIndex : Nat → Option HostReg
  | 0 => some (.r64 .a0)
  | 1 => some (.r64 .a1)
  | 2 => some (.r64 .r0)
  | 3 => some (.r32 .cmd)
  | 4 => some (.r32 .status)
  | 5 => some (.r32 .dctl)
  | _ => none

/-- A host write of the word `w` to `CMD` (R38): decoding comes first, an illegal word raises ILLEGAL_COMMAND (R73, R212),
and a command runs to its end. -/
def writeCmd (run : Instr → State → Host.Outcome State Fault Refusal) (w : Word32) (s : State) :
    Host.Outcome State Fault Refusal :=
  match decode w with
  | .ok i => run i s
  | .error _ => .next (raiseError .illegalCommand s)

/-- A host write to a 64-bit register (R22): a write to `R0` is ignored. -/
def write64 (r : Reg64) (v : Word64) (s : State) : State :=
  match r with
  | .a0 => setA0 v s
  | .a1 => setA1 v s
  | .r0 => s

/-- A host write to a 32-bit register (R22): a write to `STATUS` or `DCTL` is ignored. -/
def write32 (run : Instr → State → Host.Outcome State Fault Refusal) (r : Reg32) (v : Word32) (s : State) :
    Host.Outcome State Fault Refusal :=
  match r with
  | .cmd => writeCmd run v s
  | .status => .next s
  | .dctl => .next s

/-- The value a host read returns, and the state after it (R21, R22): a read has no side effect (R65), and a read of `CMD`
returns an unspecified value, a free value (93_implementation_defined.md U3; log 10). A 32-bit value is zero-extended. -/
def readReg (cfg : Config) (r : HostReg) (s : State) : Word64 × State :=
  match r with
  | .r64 .a0 => (s.a0, s)
  | .r64 .a1 => (s.a1, s)
  | .r64 .r0 => (s.r0, s)
  | .r32 .cmd => ((lo32 (drawFree s).1).setWidth 64, (drawFree s).2)
  | .r32 .status => ((statusWord s).setWidth 64, s)
  | .r32 .dctl => ((dctlWord cfg s.dctl).setWidth 64, s)

/-- A host read: its value is delivered to the host (log 9). -/
def hostRead (cfg : Config) (r : HostReg) (s : State) : State :=
  let d := readReg cfg r s
  { d.2 with replies := d.2.replies ++ [(r, d.1)] }

/-- RESET asserted and released (R230): the core is as after reset (R36). What it has written to HOST_MEM, the inputs and the
replies are outside the core (log 12). -/
def pulseReset (s : State) : State :=
  { State.reset with
    written := s.written
    inputs := s.inputs
    replies := s.replies
    freeCount := s.freeCount }

/-- What one input does to a state from whose inputs it has been taken. -/
def consume (cfg : Config) (run : Instr → State → Host.Outcome State Fault Refusal) (i : HostInput) (s : State) :
    Host.Outcome State Fault Refusal :=
  match i with
  | .wr64 r v => .next (write64 r v s)
  | .wr32 r v => write32 run r v s
  | .rd r => .next (hostRead cfg r s)
  | .reset => .next (pulseReset s)

/-- One step: the oldest input is taken and acts; with no input the core waits (R231; log 7). -/
def stepInputs (cfg : Config) (run : Instr → State → Host.Outcome State Fault Refusal) (s : State) :
    Host.Outcome State Fault Refusal :=
  match s.inputs with
  | [] => .next s
  | i :: rest => consume cfg run i (setInputs rest s)

/-- The host transactions a written command stands for (R77): `WR A0, a` and `WR A1, b` as far as it has operands, then
`WR CMD, word`. -/
def transactionsOf (i : Instr) (a b : Word64) : List HostInput :=
  (if readsA0 i then [.wr64 .a0 a] else []) ++ (if readsA1 i then [.wr64 .a1 b] else []) ++ [.wr32 .cmd (encode i)]

/-- The state whose next input is the write of a word to `CMD` (log 8). -/
def placeCommand (w : Word32) (s : State) : State := setInputs (.wr32 .cmd w :: s.inputs) s

end Sys2Proof.Machine
end

