-- ==== Sys2Proof/Machine/Step.lean ====
section
/-! DEFINITION. One step of the machine, and the placing of a command where the next step takes it from. -/

namespace Sys2Proof.Machine

/-- One step: one host input, to completion (spec 10_state.md R38), at the model's own parameters. -/
def step (s : State) : Host.Outcome State Fault Refusal := stepInputs config exec s

/-- `s` with the command of bits `w` written to `CMD` by the host's next transaction (log 8). -/
def State.withFetchWord (s : State) (nbits w : Nat) : State := placeCommand (commandWord nbits w) s

end Sys2Proof.Machine
end

