-- ==== Sys2Proof/Machine/StepWith.lean ====
section
/-! DEFINITION. The commands and the step as functions of the parameters of R10 (spec 00_scope.md R13). `exec` and `step` are
these at `config`; the shape of the two is fixed, and `config` is the one place they take the parameters from. -/

namespace Sys2Proof.Machine

/-- What a command does, on a configuration. -/
def execWith (cfg : Config) (i : Instr) (s : State) : Host.Outcome State Fault Refusal :=
  match i with
  | .seed => seedWith cfg s
  | .generate => generateWith cfg s
  | .nextU32 => nextU32With cfg s
  | .nextF64 => nextF64With cfg s
  | .mix => mixWith cfg s
  | .zipfInitAlpha => zipfInitAlphaWith cfg s
  | .zipfInitTheta => zipfInitThetaWith cfg s
  | .zipfDraw => zipfDrawWith cfg s
  | .rekey => rekeyWith cfg s
  | .scramble => scrambleWith cfg s
  | .disableAccel => execDisableAccel s
  | .maybeEnableAccel => maybeEnableAccelWith cfg s

/-- One step: one host input, to completion (R38), on a configuration. -/
def stepWith (cfg : Config) (s : State) : Host.Outcome State Fault Refusal := stepInputs cfg (execWith cfg) s

end Sys2Proof.Machine
end

