-- ==== Sys2Proof/Safety.lean ====
section
/-! DEFINITION. The terms claims are stated in: the invariant of the machine, the byte stream of a seed, spans of HOST_MEM,
and outcomes compared up to a part of the state. -/

namespace Sys2Proof.Machine

/-- The invariant of the machine on a configuration, in every state a run reaches:
the cells of HOST_MEM are in canonical form;
an error of the last command has set `ERR_STICKY` (R32);
once disabled, the flag shows the portable path (R198), and it shows the accelerated one only where HW_ACCEL_PRESENT says it
is there (R197);
an unexhausted buffer of a valid generator holds the refill of `counter - 4` (R24, R121);
a valid Zipf context is that of its own `n >= 1` and `theta` in `[0, 1)` (R29, R142);
a valid scrambler context is the schedule of some key (R31). -/
structure State.Inv (cfg : Config) (s : State) : Prop where
  memory : s.written.wf
  sticky : s.err ≠ none → s.errSticky = true
  disabled : s.dctl.disabled = true → s.dctl.mode = .portable
  accelerated : s.dctl.mode = .accelerated → cfg.hwAccelPresent = true
  buffer : s.gen.valid = true → s.gen.cursor.val < 256 → s.gen.buffer = fillBuffer cfg (s.gen.counter - 4)
  zipf : s.zipf.valid = true →
    s.zipf.n ≠ 0 ∧ thetaOk s.zipf.theta = true ∧ s.zipf = zipfContext cfg s.zipf.n s.zipf.theta
  key : s.key.valid = true → ∃ k, s.key.tables = keySchedule cfg k

/-- Byte number `p` of `Stream(seed)` (R129): byte `t` of word `w div 4` of `MixWords` of the lane's counter, for
`p = 256 q + 4 w + t`. -/
def streamByte (seed : Word64) (p : Nat) : Byte :=
  let w := p % 256 / 4
  byteLE ((mixWords config (config.seedExpand seed + BitVec.ofNat 64 (4 * (p / 256)) + BitVec.ofNat 64 (w % 4)))[w / 4]'(by
    omega)) (p % 4)

/-- The generator stands at position `p` of `Stream(seed)`: after `q` refills it has `256 - cursor` bytes of the `256 q`
left, and they are those of the last refill (R24, R26, R129). -/
def AtStream (g : Gen) (seed : Word64) (p : Nat) : Prop :=
  g.valid = true ∧
    ∃ q, g.counter = config.seedExpand seed + BitVec.ofNat 64 (4 * q) ∧ p + (256 - g.cursor.val) = 256 * q ∧
      (g.cursor.val < 256 → g.buffer = fillBuffer config (g.counter - 4))

/-- How many refills drawing `n` bytes from a cursor takes (R123). -/
def refillsFor (cursor n : Nat) : Nat := if n = 0 then 0 else (cursor + n - 1) / 256

/-- The cursor after drawing `n` bytes (R123). -/
def cursorAfter (cursor n : Nat) : Nat := if n = 0 then cursor else (cursor + n - 1) % 256 + 1

/-- A position rounded up to a multiple of 4 (U32_ALIGN, R124). -/
def alignUp (p : Nat) : Nat := 4 * ((p + 3) / 4)

/-- The aligned word of `Stream(seed)` at byte position `p`, least significant byte first (R53, R129). -/
def streamWord (seed : Word64) (p : Nat) : Word32 :=
  wordLE (streamByte seed p) (streamByte seed (p + 1)) (streamByte seed (p + 2)) (streamByte seed (p + 3))

/-- The platform takes a write to each of the `n` addresses from `a` on, modulo 2^64 (R58, R66). -/
def spanAccepted (cfg : Config) (a : Word64) (n : Nat) : Prop :=
  ∀ i, i < n → cfg.hostMem.refuses (a + BitVec.ofNat 64 i) = false

/-- The `i`-th address of the span is the first one the platform refuses (R58). -/
def firstRefused (cfg : Config) (a : Word64) (i : Nat) : Prop :=
  spanAccepted cfg a i ∧ cfg.hostMem.refuses (a + BitVec.ofNat 64 i) = true

/-- The error a command ends in, from the state it starts in, by the table of R211 and the conditions of R213 and R147. -/
def errorOf (cfg : Config) (i : Instr) (s : State) : Option CmdError :=
  match i with
  | .seed => none
  | .generate => if s.gen.valid then none else some .notInitialised
  | .nextU32 => if s.gen.valid then none else some .notInitialised
  | .nextF64 => if s.gen.valid then none else some .notInitialised
  | .mix => none
  | .zipfInitAlpha => if s.a0 ≠ 0 ∧ thetaOk (cfg.alphaMap (f64OfBits s.a1)) = true then none else some .domainError
  | .zipfInitTheta => if s.a0 ≠ 0 ∧ thetaOk (f64OfBits s.a1) = true then none else some .domainError
  | .zipfDraw => if s.gen.valid && s.zipf.valid then none else some .notInitialised
  | .rekey => none
  | .scramble => if s.key.valid then none else some .notInitialised
  | .disableAccel => none
  | .maybeEnableAccel => none

/-- The high word of an output goes to the even index, the low word to the odd one (R174). -/
def halfAt (d : Word64) (i : Nat) : Word32 := if i % 2 = 0 then hi32 d else lo32 d

/-- The distance of two magnitudes. -/
def gap (x y : Nat) : Nat := (x - y) + (y - x)

/-- `num / den` units at which a rounded magnitude overflows: half a unit in the last place above the greatest finite
binary64 (R140). -/
def overflowUnits : Nat := (2 ^ 54 - 1) * 2 ^ 2044

/-- The datum is the binary64 nearest in magnitude to `num / den` units of `2^-1074`, a tie going to the even fraction field,
overflow to infinity (R16, R140). -/
def NearestTo (num den : Nat) : F64 → Prop
  | .nan => False
  | .inf _ => overflowUnits * den ≤ num
  | .fin _ e f => num < overflowUnits * den ∧ ∀ e' f',
      gap (scaled e f * den) num < gap (scaled e' f' * den) num ∨
      (gap (scaled e f * den) num = gap (scaled e' f' * den) num ∧ (scaled e f = scaled e' f' ∨ f.getLsbD 0 = false))

/-- The sign bit of a datum that is not a NaN. -/
def signBit : F64 → Option Bool
  | .nan => none
  | .inf neg => some neg
  | .fin neg _ _ => some neg

/-- The outcome with its next state changed by `f`. -/
def mapNext (f : State → State) : Host.Outcome State Fault Refusal → Host.Outcome State Fault Refusal
  | .next s => .next (f s)
  | .fault r => .fault r
  | .refused r => .refused r

end Sys2Proof.Machine
end

