-- ==== Sys2Proof/Certificates/Slice0/Obligations.lean ====
section
/-! DEFINITION. The statements for the provers. Outcomes are given as next states: every field not named keeps its value.
`exec` and `step` are the machine at the model's own parameters (`config`); `execWith` and `stepWith` at any (R10, R13). -/

open Sys2Proof Sys2Proof.Machine

/-! ### The command port -/

/-- R72: a word decodes to a command exactly where it is that command's word, and the words are the table's. -/
def Obligations.LegalWordsDecodeExactly : Prop :=
  (∀ w i, decode w = .ok i ↔ w = encode i) ∧
  (∀ i, Instr.wellFormed i = true ∧ decode (encode i) = .ok i) ∧
  [Instr.seed, .generate, .nextU32, .nextF64, .mix, .zipfInitAlpha, .zipfInitTheta, .zipfDraw, .rekey, .scramble,
    .disableAccel, .maybeEnableAccel].map encode =
    [0x00000001, 0x00000002, 0x00000003, 0x00000004, 0x00000005, 0x00000010, 0x00000011, 0x00000012, 0x00000020,
      0x00000021, 0x00000030, 0x00000031]

/-- R73, R212: a word with `ZERO` not zero, or with an `OPC` outside the table, is no command's word, and writing a word
that is no command's raises ILLEGAL_COMMAND and changes nothing else. -/
def Obligations.OtherWordsAreIllegal : Prop :=
  (∀ w : Word32, wordWellFormed w = false ↔ ∀ i, w ≠ encode i) ∧
  (∀ w : Word32, wordWellFormed w = true ↔
    w.extractLsb' 8 24 = 0 ∧
      (w.extractLsb' 0 8).toNat ∈ [0x01, 0x02, 0x03, 0x04, 0x05, 0x10, 0x11, 0x12, 0x20, 0x21, 0x30, 0x31]) ∧
  ∀ cfg run w s, (∀ i, w ≠ encode i) →
    consume cfg run (.wr32 .cmd w) s = .next { s with err := some .illegalCommand, errSticky := true }

/-- R70, R72: words written out from the encoding of each group. -/
def Obligations.SpecWordsDecode : Prop :=
  decode 0b00000000000000000000000000000001 = .ok .seed ∧
  decode 0b00000000000000000000000000000101 = .ok .mix ∧
  decode 0b00000000000000000000000000010001 = .ok .zipfInitTheta ∧
  decode 0b00000000000000000000000000100001 = .ok .scramble ∧
  decode 0b00000000000000000000000000110001 = .ok .maybeEnableAccel ∧
  decode 0b00000000000000000000000100000001 = .error .nonzeroReserved ∧
  decode 0b00000000000000000000000000000000 = .error (.unassignedOpcode 0)

/-- R38: a step whose input is a write of a command's word runs that command on the state from whose inputs the write has
been taken; and that is what `withFetchWord` places (log 8). -/
def Obligations.StepRunsDecodedCommand : Prop :=
  (∀ s w rest i, s.inputs = .wr32 .cmd w :: rest → decode w = .ok i → step s = exec i { s with inputs := rest }) ∧
  (∀ (s : State) nbits w i, decodeTableWord nbits w = some i → step (s.withFetchWord nbits w) = exec i s)

/-- R22, R65: a write to `A0` or `A1` stores the value and does nothing else; a write to `R0`, `STATUS` or `DCTL` is
ignored. -/
def Obligations.HostWrites : Prop :=
  ∀ (s : State) rest,
    (∀ v, s.inputs = .wr64 .a0 v :: rest → step s = .next { s with inputs := rest, a0 := v }) ∧
    (∀ v, s.inputs = .wr64 .a1 v :: rest → step s = .next { s with inputs := rest, a1 := v }) ∧
    (∀ v, s.inputs = .wr64 .r0 v :: rest → step s = .next { s with inputs := rest }) ∧
    (∀ w, s.inputs = .wr32 .status w :: rest → step s = .next { s with inputs := rest }) ∧
    (∀ w, s.inputs = .wr32 .dctl w :: rest → step s = .next { s with inputs := rest })

/-- R21, R65: a read returns the register and changes nothing of the core; a read of `CMD` returns some 32-bit value. The
reply list is the model's (log 9), the draw count too (log 10). -/
def Obligations.HostReads : Prop :=
  ∀ (s : State) rest,
    (s.inputs = .rd (.r64 .a0) :: rest →
      step s = .next { s with inputs := rest, replies := s.replies ++ [(.r64 .a0, s.a0)] }) ∧
    (s.inputs = .rd (.r64 .a1) :: rest →
      step s = .next { s with inputs := rest, replies := s.replies ++ [(.r64 .a1, s.a1)] }) ∧
    (s.inputs = .rd (.r64 .r0) :: rest →
      step s = .next { s with inputs := rest, replies := s.replies ++ [(.r64 .r0, s.r0)] }) ∧
    (s.inputs = .rd (.r32 .status) :: rest →
      step s = .next { s with inputs := rest, replies := s.replies ++ [(.r32 .status, (statusWord s).setWidth 64)] }) ∧
    (s.inputs = .rd (.r32 .dctl) :: rest →
      step s = .next { s with inputs := rest, replies := s.replies ++ [(.r32 .dctl, (dctlWord config s.dctl).setWidth 64)] }) ∧
    (s.inputs = .rd (.r32 .cmd) :: rest →
      ∃ (v : Word32) (k : Nat), step s =
        .next { s with inputs := rest, replies := s.replies ++ [(.r32 .cmd, v.setWidth 64)], freeCount := k })

/-- R32, R211: the fields of `STATUS`. -/
def Obligations.StatusWordFields : Prop :=
  ∀ s : State,
    (statusWord s).extractLsb' 0 4 = (match s.err with
      | none => 0
      | some .illegalCommand => 1
      | some .notInitialised => 2
      | some .domainError => 3) ∧
    (statusWord s).getLsbD 4 = s.gen.valid ∧
    (statusWord s).getLsbD 5 = s.zipf.valid ∧
    (statusWord s).getLsbD 6 = s.key.valid ∧
    (statusWord s).getLsbD 7 = s.errSticky ∧
    (statusWord s).extractLsb' 8 24 = 0

/-- R33: the fields of `DCTL`; `MODE` is never 3, and `PRESENT` is HW_ACCEL_PRESENT of the platform. -/
def Obligations.DctlWordFields : Prop :=
  ∀ (cfg : Config) (d : Dctl),
    (dctlWord cfg d).extractLsb' 0 2 = (match d.mode with
      | .undetermined => 0
      | .portable => 1
      | .accelerated => 2) ∧
    (dctlWord cfg d).getLsbD 2 = d.disabled ∧
    (dctlWord cfg d).getLsbD 3 = cfg.hwAccelPresent ∧
    (dctlWord cfg d).extractLsb' 4 28 = 0

/-- R36, R230: the values the spec gives for the state after reset, in the state of power-on and after any RESET, on any
platform; `PRESENT` is hardwired. -/
def Obligations.ResetValues : Prop :=
  (statusWord State.reset = 0 ∧ State.reset.gen.valid = false ∧ State.reset.zipf.valid = false ∧
    State.reset.key.valid = false ∧ State.reset.err = none ∧ State.reset.errSticky = false ∧
    State.reset.dctl.mode = .undetermined ∧ State.reset.dctl.disabled = false ∧
    ∀ cfg : Config, dctlWord cfg State.reset.dctl = if cfg.hwAccelPresent then 8 else 0) ∧
  ∀ (cfg : Config) (s : State) rest, s.inputs = .reset :: rest → ∃ t, stepWith cfg s = .next t ∧
    statusWord t = 0 ∧ t.gen.valid = false ∧ t.zipf.valid = false ∧ t.key.valid = false ∧ t.err = none ∧
    t.errSticky = false ∧ t.dctl = { mode := .undetermined, disabled := false } ∧
    dctlWord cfg t.dctl = if cfg.hwAccelPresent then 8 else 0

/-- The model's choices around RESET and waiting (logs 7 and 12): RESET leaves what was written to HOST_MEM, the inputs still to come and the
replies; with no input the core waits in the state it is in. -/
def Obligations.ResetAndWaitFrame : Prop :=
  (∀ (s : State) rest, s.inputs = .reset :: rest → ∃ t, step s = .next t ∧
    t.written = s.written ∧ t.inputs = rest ∧ t.replies = s.replies) ∧
  ∀ s : State, s.inputs = [] → step s = .next s

/-- R77: the transactions of a written command run it on its operands; a register it does not read keeps its value, and the
transactions after it wait. -/
def Obligations.TransactionsRunCommand : Prop :=
  ∀ (i : Instr) (a b : Word64) (rest : List HostInput) (s : State), s.inputs = transactionsOf i a b ++ rest →
    Host.Core.run Sys2Proof.core (transactionsOf i a b).length s =
      exec i { s with inputs := rest, a0 := if readsA0 i then a else s.a0, a1 := if readsA1 i then b else s.a1 }

/-! ### The generator -/

/-- R122, R129: SEED. The buffer, `DCTL` and `R0` keep their values, and the generator stands at position 0 of the stream of
the operand. -/
def Obligations.SeedResult : Prop :=
  ∀ s : State, ∃ g : Gen, exec .seed s = .next { s with err := none, gen := g } ∧
    g = { valid := true, counter := s.a0, cursor := ⟨256, by decide⟩, buffer := s.gen.buffer } ∧ AtStream g s.a0 0

/-- R123: GENERATE with a valid generator and a destination the platform takes, on any configuration. The refills, the counter
and the cursor are the ones the rule gives; no byte of HOST_MEM outside the span changes; a length of zero (R225) changes
nothing but the outcome. -/
def Obligations.GenerateCompletes : Prop :=
  ∀ (cfg : Config) (s : State), s.gen.valid = true → spanAccepted cfg s.a0 s.a1.toNat →
    ∃ (m : Memory) (g : Gen),
      execWith cfg .generate s = .next { s with
        err := none, written := m, gen := g,
        dctl := if refillsFor s.gen.cursor.val s.a1.toNat = 0 then s.dctl else touchDctl cfg s.dctl } ∧
      g.valid = true ∧
      g.counter = s.gen.counter + BitVec.ofNat 64 (4 * refillsFor s.gen.cursor.val s.a1.toNat) ∧
      g.cursor.val = cursorAfter s.gen.cursor.val s.a1.toNat ∧
      g.buffer = (if refillsFor s.gen.cursor.val s.a1.toNat = 0 then s.gen.buffer
        else fillBuffer cfg (g.counter - 4)) ∧
      (∀ a : Word64, s.a1.toNat ≤ (a - s.a0).toNat → m.read a = s.written.read a) ∧
      (s.a1 = 0 → m = s.written ∧ g = s.gen)

/-- R123, R129: on any platform GENERATE writes the next bytes of the stream, in order, and moves the position on by its
length. -/
def Obligations.GenerateWritesStream : Prop :=
  ∀ (present : Bool) (refuses : Word64 → Bool) (s : State) (seed : Word64) (p : Nat), AtStream s.gen seed p →
    spanAccepted (configOn present refuses) s.a0 s.a1.toNat →
    ∃ t, execWith (configOn present refuses) .generate s = .next t ∧ AtStream t.gen seed (p + s.a1.toNat) ∧
      ∀ i, i < s.a1.toNat → t.written.read (s.a0 + BitVec.ofNat 64 i) = some (streamByte seed (p + i))

/-- R123: on any configuration GENERATE of lengths `m` and then `n` equals one GENERATE of length `m + n`: the same bytes in
the same places and the same generator. -/
def Obligations.GenerateContinuity : Prop :=
  ∀ (cfg : Config) (s : State) (m n : Nat), s.gen.valid = true → m + n < 2 ^ 64 → spanAccepted cfg s.a0 (m + n) →
    ∃ t u v, execWith cfg .generate { s with a1 := BitVec.ofNat 64 m } = .next t ∧
      execWith cfg .generate { t with a0 := s.a0 + BitVec.ofNat 64 m, a1 := BitVec.ofNat 64 n } = .next u ∧
      execWith cfg .generate { s with a1 := BitVec.ofNat 64 (m + n) } = .next v ∧
      u.gen = v.gen ∧ u.written = v.written ∧ u.dctl = v.dctl

/-- R58: a GENERATE or a MIX whose destination the platform refuses has no step: it stops, at the first refused address, and
completes with no error code. -/
def Obligations.RefusedWriteStops : Prop :=
  (∀ (cfg : Config) (s : State) (i : Nat), s.gen.valid = true → i < s.a1.toNat → firstRefused cfg s.a0 i →
    execWith cfg .generate s = .fault (.hostMemRefused (s.a0 + BitVec.ofNat 64 i))) ∧
  (∀ (cfg : Config) (s : State) (i : Nat), i < 64 → firstRefused cfg s.a1 i →
    execWith cfg .mix s = .fault (.hostMemRefused (s.a1 + BitVec.ofNat 64 i)))

/-- R124: NEXT_U32 with at least one whole aligned word left in the buffer. -/
def Obligations.NextU32InBuffer : Prop :=
  ∀ (s : State) (h : s.gen.cursor.val ≤ 252), s.gen.valid = true →
    exec .nextU32 s = .next { s with
      err := none
      r0 := (wordLE (s.gen.buffer[alignUp s.gen.cursor.val]'(by unfold alignUp; omega))
        (s.gen.buffer[alignUp s.gen.cursor.val + 1]'(by unfold alignUp; omega))
        (s.gen.buffer[alignUp s.gen.cursor.val + 2]'(by unfold alignUp; omega))
        (s.gen.buffer[alignUp s.gen.cursor.val + 3]'(by unfold alignUp; omega))).setWidth 64
      gen := { s.gen with cursor := ⟨alignUp s.gen.cursor.val + 4, by unfold alignUp; omega⟩ } }

/-- R124, R121: NEXT_U32 that refills first returns word 0 of `MixWords` of the counter. -/
def Obligations.NextU32Refills : Prop :=
  ∀ s : State, 252 < s.gen.cursor.val → s.gen.valid = true →
    exec .nextU32 s = .next { s with
      err := none
      r0 := ((mixWords config s.gen.counter)[0]).setWidth 64
      dctl := touchDctl config s.dctl
      gen := { valid := true, counter := s.gen.counter + 4, cursor := ⟨4, by decide⟩,
               buffer := fillBuffer config s.gen.counter } }

/-- R124, R129: NEXT_U32 returns the next aligned word of the stream and moves the position past it. -/
def Obligations.NextU32Stream : Prop :=
  ∀ (s : State) (seed : Word64) (p : Nat), AtStream s.gen seed p →
    ∃ t, exec .nextU32 s = .next t ∧ t.r0 = (streamWord seed (alignUp p)).setWidth 64 ∧
      AtStream t.gen seed (alignUp p + 4)

/-- R125: NEXT_F64 is two word draws, the first one high, and the exact binary64 `m * 2^-53` of their top 53 bits. -/
def Obligations.NextF64Draws : Prop :=
  ∀ s : State, s.gen.valid = true →
    ∃ t u e f v, exec .nextU32 s = .next t ∧ exec .nextU32 t = .next u ∧
      exec .nextF64 s = .next { u with r0 := v } ∧ f64OfBits v = .fin false e f ∧
      scaled e f = (t.r0.toNat * 2 ^ 32 + u.r0.toNat) / 2 ^ 11 * 2 ^ (1074 - 53)

/-- R125: the result of NEXT_F64 is `+0.0` or a normal number from `2^-53` to `1 - 2^-53`. -/
def Obligations.NextF64Range : Prop :=
  ∀ s : State, s.gen.valid = true →
    ∃ t, exec .nextF64 s = .next t ∧
      (t.r0 = 0 ∨ (0x3CA0000000000000 ≤ t.r0.toNat ∧ t.r0.toNat ≤ 0x3FEFFFFFFFFFFFFF))

/-- R121: where each byte of a refill comes from: byte `4w + t` of the buffer is byte `t` of word `w div 4` of `MixWords` of
the counter `counter + (w mod 4)`. -/
def Obligations.RefillLayout : Prop :=
  ∀ (c : Word64) (w t : Nat) (hw : w < 64) (ht : t < 4),
    (fillBuffer config c)[4 * w + t]'(by omega) =
      ((mixWords config (c + BitVec.ofNat 64 (w % 4)))[w / 4]'(by omega)).extractLsb' (8 * t) 8

/-- R122, R129, R236: how streams recur: the seed `s + 4q` gives the stream of `s` advanced by `256 q` bytes, lane `k + 1` of
the seed `s` is lane `k` of the seed `s + 1`, and a stream has period `2^64 * 64`. -/
def Obligations.StreamsRecur : Prop :=
  (∀ (seed : Word64) (q p : Nat), streamByte (seed + BitVec.ofNat 64 (4 * q)) p = streamByte seed (p + 256 * q)) ∧
  (∀ (seed : Word64) (q j k t : Nat), j < 16 → k < 3 → t < 4 →
    streamByte seed (256 * q + 4 * (4 * j + (k + 1)) + t) = streamByte (seed + 1) (256 * q + 4 * (4 * j + k) + t)) ∧
  (∀ (seed : Word64) (p : Nat), streamByte seed (p + 2 ^ 64 * 64) = streamByte seed p)

/-! ### Mixing and dispatch -/

/-- R110, R108, R66: on any configuration MIX writes byte `4j + t` of the block, byte `t` of word `j`, to the `4j + t`-th address
of a span the platform takes; no byte outside the span changes. -/
def Obligations.MixResult : Prop :=
  ∀ (cfg : Config) (s : State), spanAccepted cfg s.a1 64 →
    ∃ m, execWith cfg .mix s = .next { s with err := none, dctl := touchDctl cfg s.dctl, written := m } ∧
      (∀ (j t : Nat) (hj : j < 16), t < 4 →
        m.read (s.a1 + BitVec.ofNat 64 (4 * j + t)) = some (((mixWords cfg s.a0)[j]).extractLsb' (8 * t) 8)) ∧
      ∀ a : Word64, 64 ≤ (a - s.a1).toNat → m.read a = s.written.read a

/-- R104, R109: worked values of the quarter-round and of `MixWords`. -/
def Obligations.MixingVectors : Prop :=
  quarterRound 1 0 0 0 = #v[0x08008145, 0x00000080, 0x00010200, 0x20500000] ∧
  quarterRound 0 0 0 0 = #v[0, 0, 0, 0] ∧
  quarterRound 0xE7E8C006 0xC4F9417D 0x6479B4B2 0x68C67137 = #v[0xE876D72B, 0x9361DFD5, 0xF1460244, 0x948541A3] ∧
  mixWords config 0 = #v[0x5BF6979A, 0x1B724C9B, 0x21670A96, 0xD4A8FC45, 0xF9672EE3, 0x79A91E11, 0x26489CCE, 0xE6EE6A80,
    0xDAC0E93D, 0x1EF9D72B, 0x9B63B2BC, 0x25C689F9, 0x38BF291B, 0xDC9B9AD3, 0x4B5FC5E7, 0x392AC12A] ∧
  mixWords config 0x0123456789ABCDEF = #v[0x5050522B, 0xAEC01D91, 0x611B2F5F, 0x9FA3C5AF, 0xCB2E50AA, 0x33E374F6,
    0xB0E74730, 0xAB76B2B6, 0xE4F30DF8, 0xCD019A26, 0xC010B53D, 0x39259990, 0xB10ABDFE, 0xABC8376B, 0x764D9269,
    0xB286044C]

/-- R105, R106: the row round is the column round of the transposed matrix, transposed. -/
def Obligations.RowRoundTransposesColumnRound : Prop :=
  ∀ x : Matrix, rowRound x =
    Vector.ofFn (fun k : Fin 16 => (columnRound (Vector.ofFn (fun j : Fin 16 => x[4 * (j.val % 4) + j.val / 4])))[
      4 * (k.val % 4) + k.val / 4])

/-- R198, R200: the two dispatch commands; each is idempotent, and a MAYBE_ENABLE_ACCEL never undoes a DISABLE_ACCEL. -/
def Obligations.DispatchCommands : Prop :=
  (∀ s : State, exec .disableAccel s = .next { s with err := none, dctl := { mode := .portable, disabled := true } }) ∧
  (∀ s : State, exec .maybeEnableAccel s =
    .next { s with err := none, dctl := { s.dctl with
      mode := if s.dctl.disabled = false ∧ config.hwAccelPresent = true then .accelerated else .portable } }) ∧
  (∀ s : State, ∃ t, exec .disableAccel s = .next t ∧ exec .disableAccel t = .next t ∧ exec .maybeEnableAccel t = .next t) ∧
  (∀ s : State, ∃ t, exec .maybeEnableAccel s = .next t ∧ exec .maybeEnableAccel t = .next t)

/-- R197: the probe selects the accelerated path exactly where HW_ACCEL_PRESENT says it is there and it is not disabled; the
lazy probe acts only while the flag is undetermined. -/
def Obligations.LazyProbe : Prop :=
  ∀ (cfg : Config) (d : Dctl),
    probe cfg d = { d with mode := if d.disabled = false ∧ cfg.hwAccelPresent = true then .accelerated else .portable } ∧
    (d.mode ≠ .undetermined → touchDctl cfg d = d) ∧
    (d.mode = .undetermined → touchDctl cfg d =
      { d with mode := if d.disabled = false ∧ cfg.hwAccelPresent = true then .accelerated else .portable })

/-- R199, R127: nothing but `DCTL` depends on `DCTL` or on `HW_ACCEL_PRESENT`: from two states and on two platforms that
differ only there, a command has the same outcome but for `DCTL`. -/
def Obligations.DispatchIsInvisible : Prop :=
  ∀ (cfg : Config) (present : Bool) (i : Instr) (s : State) (d e : Dctl),
    mapNext (setDctl e) (execWith { cfg with hwAccelPresent := present } i (setDctl d s)) =
      mapNext (setDctl e) (execWith cfg i s)

/-! ### Binary64 -/

/-- R16: `f64_of_bits` and `bits` are inverse, but for the NaN, which has one datum (log 15). -/
def Obligations.BitsRoundTrip : Prop :=
  (∀ d : F64, f64OfBits (bitsOf d) = d) ∧
  (∀ w : Word64, f64OfBits w ≠ .nan → bitsOf (f64OfBits w) = w) ∧
  (∀ w : Word64, f64OfBits w = .nan ↔ w.extractLsb' 52 11 = 2047 ∧ w.extractLsb' 0 52 ≠ 0)

/-- R16, R140: `fadd`, `fmul`, `fdiv` and `f64_of_u64` on finite operands round the exact result to nearest, ties to even. -/
def Obligations.RoundsToNearest : Prop :=
  (∀ n e f n' e' f', scaledInt n e f + scaledInt n' e' f' ≠ 0 →
    NearestTo (scaledInt n e f + scaledInt n' e' f').natAbs 1 (fadd (.fin n e f) (.fin n' e' f')) ∧
    signBit (fadd (.fin n e f) (.fin n' e' f')) = some (decide (scaledInt n e f + scaledInt n' e' f' < 0))) ∧
  (∀ n e f n' e' f', NearestTo (scaled e f * scaled e' f') (2 ^ 1074) (fmul (.fin n e f) (.fin n' e' f')) ∧
    signBit (fmul (.fin n e f) (.fin n' e' f')) = some (n != n')) ∧
  (∀ n e f n' e' f', scaled e' f' ≠ 0 →
    NearestTo (scaled e f * 2 ^ 1074) (scaled e' f') (fdiv (.fin n e f) (.fin n' e' f')) ∧
    signBit (fdiv (.fin n e f) (.fin n' e' f')) = some (n != n')) ∧
  (∀ k, k < 2 ^ 64 → NearestTo (k * 2 ^ 1074) 1 (f64OfU64 k) ∧ signBit (f64OfU64 k) = some false)

/-- R141: the four properties of POW64. -/
def Obligations.Pow64Properties : Prop :=
  (∀ (x : F64) (neg : Bool), config.pow64 x (.fin neg 0 0#52) = F64.one) ∧
  (∀ y, config.pow64 F64.one y = F64.one) ∧
  (∀ x, config.pow64 x F64.one = x) ∧
  (∀ x y, isFinite x = true → flt F64.zero x = true → isFinite y = true →
    config.pow64 x y ≠ .nan ∧ fge (config.pow64 x y) F64.zero = true)

/-! ### The Zipfian sampler -/

/-- R142, R143: ZIPF_INIT_THETA with `n` not zero and `theta` in `[0, 1)`. `zeta2` is written with P2 of R141; `R0`, the
generator, the scrambler and HOST_MEM keep their values. -/
def Obligations.ZipfInitThetaResult : Prop :=
  ∀ (s : State) (theta : F64), f64OfBits s.a1 = theta → s.a0 ≠ 0 → thetaOk theta = true →
    exec .zipfInitTheta s = .next { s with
      err := none
      zipf :=
        { valid := true
          n := s.a0
          theta := theta
          alphaExp := fdiv F64.one (fsub F64.one theta)
          zetan := (List.range s.a0.toNat).foldl
            (fun z k => fadd z (config.pow64 (f64OfU64 (k + 1)) (fsub F64.zero theta))) F64.zero
          zeta2 := fadd F64.one (config.pow64 F64.two (fsub F64.zero theta))
          eta := fdiv (fsub F64.one (config.pow64 (fdiv F64.two (f64OfU64 s.a0.toNat)) (fsub F64.one theta)))
            (fsub F64.one (fdiv (fadd F64.one (config.pow64 F64.two (fsub F64.zero theta)))
              ((List.range s.a0.toNat).foldl
                (fun z k => fadd z (config.pow64 (f64OfU64 (k + 1)) (fsub F64.zero theta))) F64.zero))) } }

/-- R142, R143: which bit patterns pass the test on `theta`: `-0.0` and everything from `+0.0` to just below `1.0`. -/
def Obligations.ThetaPatterns : Prop :=
  ∀ w : Word64, thetaOk (f64OfBits w) = true ↔ (w = 0x8000000000000000 ∨ w.toNat < 0x3FF0000000000000)

/-- R147, R214: an initialisation with `n = 0`, or with a `theta` that fails the test, ends in DOMAIN_ERROR and leaves no
valid Zipf context; of the rest only `STATUS` changes. The other Zipf fields become unspecified, and the draw count is the
model's (log 11). -/
def Obligations.ZipfDomainError : Prop :=
  (∀ s : State, s.a0 = 0 ∨ thetaOk (f64OfBits s.a1) = false →
    ∃ z k, z.valid = false ∧
      exec .zipfInitTheta s = .next { s with err := some .domainError, errSticky := true, zipf := z, freeCount := k }) ∧
  (∀ s : State, s.a0 = 0 ∨ thetaOk (fsub F64.one (fdiv F64.one (f64OfBits s.a1))) = false →
    ∃ z k, z.valid = false ∧
      exec .zipfInitAlpha s = .next { s with err := some .domainError, errSticky := true, zipf := z, freeCount := k })

/-- R144: ZIPF_INIT_ALPHA is ZIPF_INIT_THETA with `theta = 1 - 1/alpha`, and completes where that passes the test. -/
def Obligations.ZipfInitAlphaRoute : Prop :=
  ∀ (s : State) (theta : F64), fsub F64.one (fdiv F64.one (f64OfBits s.a1)) = theta → s.a0 ≠ 0 → thetaOk theta = true →
    ∃ t, exec .zipfInitTheta { s with a1 := bitsOf theta } = .next t ∧
      exec .zipfInitAlpha s = .next { t with a1 := s.a1 } ∧ t.zipf.valid = true ∧ t.zipf.theta = theta ∧ t.err = none

/-- R144: which bit patterns of `alpha` are accepted: from `1.0` to just below `2^54`, where `1 - 1/alpha` rounds to
`1.0`. -/
def Obligations.AlphaPatterns : Prop :=
  ∀ w : Word64, thetaOk (fsub F64.one (fdiv F64.one (f64OfBits w))) = true ↔
    (0x3FF0000000000000 ≤ w.toNat ∧ w.toNat < 0x4350000000000000)

/-- R143: the uniform case `theta = +0.0` or `-0.0`: `zetan = n` exactly up to `2^53`, `zeta2 = 2.0`, `alpha_exp = 1.0`, and
`eta = 1.0` from `n = 3` on. -/
def Obligations.UniformContext : Prop :=
  ∀ s : State, s.a0 ≠ 0 → s.a0.toNat ≤ 2 ^ 53 → s.a1 = 0 ∨ s.a1 = 0x8000000000000000 →
    ∃ t, exec .zipfInitTheta s = .next t ∧ t.zipf.valid = true ∧ t.zipf.n = s.a0 ∧
      t.zipf.zetan = f64OfU64 s.a0.toNat ∧ t.zipf.zeta2 = F64.two ∧ t.zipf.alphaExp = F64.one ∧
      (3 ≤ s.a0.toNat → t.zipf.eta = F64.one)

/-- R142, R143, R148: the smallest populations: for `n = 1` the sum is `1.0`; for `n = 2` it is `zeta2`, bit for bit; from
there on it starts from `zeta2`. -/
def Obligations.ZipfSmallPopulations : Prop :=
  ∀ theta : F64,
    (zipfContext config 1 theta).zetan = F64.one ∧
    (zipfContext config 2 theta).zetan = (zipfContext config 2 theta).zeta2 ∧
    (∀ n : Word64, (zipfContext config n theta).zeta2 = zetaSum config.pow64 (fsub F64.zero theta) 2) ∧
    (∀ k, zetaSum config.pow64 (fsub F64.zero theta) (2 + k) =
      (List.range k).foldl (fun z j => fadd z (config.pow64 (f64OfU64 (j + 3)) (fsub F64.zero theta)))
        (fadd F64.one (config.pow64 F64.two (fsub F64.zero theta))))

/-- R146: ZIPF_DRAW consumes exactly one NEXT_F64 and returns the rank of its value; all else is as after that NEXT_F64. -/
def Obligations.ZipfDrawResult : Prop :=
  ∀ s : State, s.gen.valid = true → s.zipf.valid = true →
    ∃ t, exec .nextF64 s = .next t ∧ exec .zipfDraw s = .next { t with r0 := rank config s.zipf (f64OfBits t.r0) } ∧
      t.zipf = s.zipf

/-- R145: the rank: the two fast paths, the upper clamp, the closed form as an integer, the lower clamp. -/
def Obligations.RankFormula : Prop :=
  ∀ (z : Zipf) (u uz nf v : F64),
    fmul u z.zetan = uz → f64OfU64 z.n.toNat = nf →
    fmul nf (config.pow64 (fadd (fsub (fmul z.eta u) z.eta) F64.one) z.alphaExp) = v →
    (flt uz F64.one = true → rank config z u = 1) ∧
    (flt uz F64.one = false → flt uz z.zeta2 = true → rank config z u = 2) ∧
    (flt uz F64.one = false → flt uz z.zeta2 = false →
      (fge v nf = true → rank config z u = z.n) ∧
      (∀ neg e f, v = .fin neg e f → fge v nf = false → fge v F64.zero = true →
        (rank config z u).toNat = min (1 + scaled e f / 2 ^ 1074) z.n.toNat) ∧
      (fge v nf = false → fge v F64.zero = false → rank config z u = 1))

/-- R146, R29: a draw from a valid context returns a rank from 1 to `n`. -/
def Obligations.DrawRankRange : Prop :=
  ∀ s : State, s.Inv config → s.gen.valid = true → s.zipf.valid = true →
    ∃ t, exec .zipfDraw s = .next t ∧ 1 ≤ t.r0.toNat ∧ t.r0.toNat ≤ s.zipf.n.toNat

/-! ### The scrambler -/

/-- R174, R31: REKEY always completes; the tables are those of the key in `A0` and nothing of the earlier ones is kept. -/
def Obligations.RekeyResult : Prop :=
  ∀ s : State, exec .rekey s =
    .next { s with err := none, key := { valid := true, tables := keySchedule config s.a0 } }

/-- R174, steps 1 and 2: the frozen table, with the high half of the key in the even words of `P` and the low half in the odd
ones. -/
def Obligations.KeyedTablesAlternate : Prop :=
  ∀ k : Word64, (keyedTables config k).s = initTable.s ∧
    ∀ i : Fin 18, (keyedTables config k).p[i] = initTable.p[i] ^^^ halfAt k i.val

/-- R174, step 3: the schedule is 521 chained encryptions. From the keyed tables and an all-zero block, each output is the
encryption of the one before under the tables as they stand, and replaces two words: output `i + 1` gives `P[2i]` and
`P[2i+1]` for `i < 9`, and then two entries of each S-box in turn, the high half at the lower index. -/
def Obligations.ScheduleIsChained : Prop :=
  ∀ k : Word64, ∃ (t : Nat → Tables) (d : Nat → Word64),
    t 0 = keyedTables config k ∧ d 0 = 0 ∧ t 521 = keySchedule config k ∧
    ∀ j, j < 521 → d (j + 1) = encrypt config (t j) (d j) ∧
      (∀ i : Fin 18, (t (j + 1)).p[i] = if j = i.val / 2 then halfAt (d (j + 1)) i.val else (t j).p[i]) ∧
      (∀ (b : Fin 4) (i : Fin 256), (t (j + 1)).s[b][i] =
        if j = 9 + 128 * b.val + i.val / 2 then halfAt (d (j + 1)) i.val else (t j).s[b][i])

/-- R174: the first output of the schedule stays in `P[0]` and `P[1]`. -/
def Obligations.FirstSubkeys : Prop :=
  (∀ k : Word64, (keySchedule config k).p[0] = hi32 (encrypt config (keyedTables config k) 0) ∧
    (keySchedule config k).p[1] = lo32 (encrypt config (keyedTables config k) 0)) ∧
  (keySchedule config 0).p[0] = 0x706D9FCC ∧ (keySchedule config 0).p[1] = 0x1792D23A

/-- R175: SCRAMBLE returns `Encrypt` of `A0` and writes nothing but `R0` and `STATUS.ERR`; without a key it ends in
NOT_INITIALISED. -/
def Obligations.ScrambleResult : Prop :=
  (∀ s : State, s.key.valid = true →
    exec .scramble s = .next { s with err := none, r0 := encrypt config s.key.tables s.a0 }) ∧
  ∀ s : State, s.key.valid = false →
    exec .scramble s = .next { s with err := some .notInitialised, errSticky := true }

/-- R173: `Encrypt` in the form without swaps. -/
def Obligations.EncryptUnrolled : Prop :=
  ∀ (t : Tables) (v : Word64), encrypt config t v =
    let r := (List.finRange 8).foldl (fun (x : Word32 × Word32) (i : Fin 8) =>
      let xr := x.2 ^^^ (feistelF config t x.1 ^^^ t.p[2 * i.val + 1])
      let xl := x.1 ^^^ (feistelF config t xr ^^^ t.p[2 * i.val + 2])
      (xl, xr)) (hi32 v ^^^ t.p[0], lo32 v)
    (r.2 ^^^ t.p[17]) ++ r.1

/-- R176: for any tables `Encrypt` is a bijection on 64-bit values, whatever INIT_TABLE, F_FORM, KEY_BYTE_ORDER and
REKEY_CHAIN are; the subkeys in reverse order undo it. -/
def Obligations.EncryptIsBijection : Prop :=
  ∀ (cfg : Config) (t : Tables), cfg.roundForm = classicalRounds →
    Function.Bijective (encrypt cfg t) ∧
    ∀ v, encrypt cfg { t with p := Vector.ofFn (fun i : Fin 18 => t.p[17 - i.val]) } (encrypt cfg t v) = v

/-- R171, R173: the worked values of `F` and `Encrypt` over the initial table. -/
def Obligations.CipherVectors : Prop :=
  feistelF config initTable 0x00000000 = 0x2FCFF51E ∧
  feistelF config initTable 0x01020304 = 0x3CEDFF8C ∧
  feistelF config initTable 0xFFFFFFFF = 0x452C2867 ∧
  encrypt config initTable 0 = 0x706D9FCC1792D23A

/-! ### Errors, and rules over all commands -/

/-- R213, R120: a command that needs a context whose valid bit is 0 ends in NOT_INITIALISED and changes only `STATUS`. -/
def Obligations.NotInitialised : Prop :=
  ∀ s : State,
    (s.gen.valid = false → ∀ i, i ∈ [Instr.generate, .nextU32, .nextF64, .zipfDraw] →
      exec i s = .next { s with err := some .notInitialised, errSticky := true }) ∧
    (s.zipf.valid = false → exec .zipfDraw s = .next { s with err := some .notInitialised, errSticky := true }) ∧
    (s.key.valid = false → exec .scramble s = .next { s with err := some .notInitialised, errSticky := true })

/-- R13: the machine is the parametric one at the model's own parameters, with no parameter in the state; the platform of
that configuration refuses no write (the model's choice, log 6), so every GENERATE with a valid generator and every MIX
completes on it. -/
def Obligations.ModelPlatform : Prop :=
  (∀ i s, exec i s = execWith config i s) ∧ (∀ s, step s = stepWith config s) ∧
  (∀ a, config.hostMem.refuses a = false) ∧
  (∀ s : State, s.gen.valid = true →
    ∃ m g d, exec .generate s = .next { s with err := none, written := m, gen := g, dctl := d }) ∧
  (∀ s : State, ∃ m, exec .mix s = .next { s with err := none, dctl := touchDctl config s.dctl, written := m })

/-- R211, R17, R32: the outcome each command reports, and the sticky bit. -/
def Obligations.OutcomeReported : Prop :=
  ∀ (cfg : Config) (i : Instr) (s t : State), execWith cfg i s = .next t →
    t.err = errorOf cfg i s ∧ t.errSticky = (s.errSticky || (errorOf cfg i s).isSome)

/-- R214: a command that ends in error has changed only `STATUS`, and for DOMAIN_ERROR the Zipf context, whose valid bit it
clears. -/
def Obligations.ErrorsArePrecise : Prop :=
  ∀ (cfg : Config) (i : Instr) (s t : State), execWith cfg i s = .next t → t.err ≠ none →
    t.errSticky = true ∧ t.a0 = s.a0 ∧ t.a1 = s.a1 ∧ t.r0 = s.r0 ∧ t.dctl = s.dctl ∧ t.gen = s.gen ∧ t.key = s.key ∧
    t.written = s.written ∧
    (t.err = some .domainError → t.zipf.valid = false) ∧ (t.err ≠ some .domainError → t.zipf = s.zipf)

/-- R22: no command writes `A0` or `A1`; `R0` is written only by NEXT_U32, NEXT_F64, ZIPF_DRAW and SCRAMBLE, and only where
they end OK. -/
def Obligations.GeneralRegisterWriters : Prop :=
  ∀ (cfg : Config) (i : Instr) (s t : State), execWith cfg i s = .next t →
    t.a0 = s.a0 ∧ t.a1 = s.a1 ∧
    (t.r0 = s.r0 ∨ (t.err = none ∧ i ∈ [Instr.nextU32, .nextF64, .zipfDraw, .scramble]))

/-- R24, R27, R29, R30, R31, R33, R56, R198: which commands write each context, the dispatch flag and HOST_MEM. -/
def Obligations.ContextWriters : Prop :=
  ∀ (cfg : Config) (i : Instr) (s t : State), execWith cfg i s = .next t →
    (i ∉ [Instr.generate, .mix] → t.written = s.written) ∧
    (i ∉ [Instr.seed, .generate, .nextU32, .nextF64, .zipfDraw] → t.gen = s.gen) ∧
    (i ∉ [Instr.zipfInitAlpha, .zipfInitTheta] → t.zipf = s.zipf) ∧
    (i ≠ .rekey → t.key = s.key) ∧
    (i ∉ [Instr.generate, .nextU32, .nextF64, .mix, .zipfDraw, .disableAccel, .maybeEnableAccel] → t.dctl = s.dctl) ∧
    (i ≠ .disableAccel → t.dctl.disabled = s.dctl.disabled)

/-- R71, R34, R50: a command's outcome does not depend on an operand register it does not read, on `STATUS`, or on the bytes
HOST_MEM holds. -/
def Obligations.UnreadState : Prop :=
  ∀ (cfg : Config) (i : Instr) (s : State),
    (∀ v, readsA0 i = false → execWith cfg i (setA0 v s) = mapNext (setA0 v) (execWith cfg i s)) ∧
    (∀ v, readsA1 i = false → execWith cfg i (setA1 v s) = mapNext (setA1 v) (execWith cfg i s)) ∧
    (∀ e b, mapNext (fun t => { t with errSticky := b }) (execWith cfg i { s with err := e, errSticky := b }) =
      mapNext (fun t => { t with errSticky := b }) (execWith cfg i s)) ∧
    (∀ m m', mapNext (setWritten m) (execWith cfg i (setWritten m' s)) = mapNext (setWritten m) (execWith cfg i s))

/-- R230: no step but RESET clears `GEN.valid`, `KEY.valid`, `ERR_STICKY` or `DISABLED`; `ZIPF.valid` is cleared only by a
command that ends in DOMAIN_ERROR. -/
def Obligations.OnlyResetClears : Prop :=
  ∀ (cfg : Config) (s t : State), stepWith cfg s = .next t → s.inputs.head? ≠ some .reset →
    (s.gen.valid = true → t.gen.valid = true) ∧ (s.key.valid = true → t.key.valid = true) ∧
    (s.errSticky = true → t.errSticky = true) ∧ (s.dctl.disabled = true → t.dctl.disabled = true) ∧
    (s.zipf.valid = true → t.zipf.valid = false → t.err = some .domainError)

/-- R24, R29, R31, R32, R197, R198: the invariant of the machine is kept by every step, from every state that has it, on any
configuration, and so by `step`. -/
def Obligations.InvariantKept : Prop :=
  (∀ (cfg : Config) (s t : State), s.Inv cfg → stepWith cfg s = .next t → t.Inv cfg) ∧
  ∀ s t : State, s.Inv config → step s = .next t → t.Inv config

/-- The invariant holds after reset, on any configuration. -/
def Obligations.InvariantAtReset : Prop := ∀ cfg : Config, State.reset.Inv cfg
end

