-- ==== Sys2Proof/Laws/Bits.lean ====
section
/-! SUPPORT. Tabulated vectors, and the bit fields and byte orders of Machine/Operands.lean. -/

namespace Sys2Proof

@[simp] theorem tabulate_getElem {α : Type} (n : Nat) (f : Nat → α) (i : Nat) (h : i < n) :
    (tabulate n f)[i] = f i := by
  simp [tabulate, Vector.getElem_mk]

namespace Machine

/-- The high half of a joined value. -/
@[simp] theorem hi32_concat32 (hi lo : Word32) : hi32 (concat32 hi lo) = hi := by
  apply BitVec.eq_of_getLsbD_eq
  intro i h
  simp only [hi32, concat32, BitVec.getLsbD_extractLsb', BitVec.getLsbD_append]
  simp [h]

/-- The low half of a joined value. -/
@[simp] theorem lo32_concat32 (hi lo : Word32) : lo32 (concat32 hi lo) = lo := by
  apply BitVec.eq_of_getLsbD_eq
  intro i h
  simp only [lo32, concat32, BitVec.getLsbD_extractLsb', BitVec.getLsbD_append]
  simp [h]

/-- A value is its halves, joined. -/
@[simp] theorem concat32_hi_lo (v : Word64) : concat32 (hi32 v) (lo32 v) = v := by
  apply BitVec.eq_of_getLsbD_eq
  intro i h
  simp only [hi32, lo32, concat32, BitVec.getLsbD_extractLsb', BitVec.getLsbD_append]
  by_cases h' : i < 32
  · simp [h']
  · have : i - 32 < 32 := by omega
    have e : 32 + (i - 32) = i := by omega
    simp [h', this, e]

/-- A word is its bytes, least significant first. -/
@[simp] theorem wordLE_byteLE (w : Word32) : wordLE (byteLE w 0) (byteLE w 1) (byteLE w 2) (byteLE w 3) = w := by
  apply BitVec.eq_of_getLsbD_eq
  intro i h
  simp only [wordLE, byteLE, BitVec.getLsbD_append, BitVec.getLsbD_extractLsb']
  rcases (by omega : i < 8 ∨ (8 ≤ i ∧ i < 16) ∨ (16 ≤ i ∧ i < 24) ∨ 24 ≤ i) with h' | h' | h' | h'
  · simp [h']
  · have h1 : ¬ i < 8 := by omega
    have h2 : i - 8 < 8 := by omega
    simp [h1, h2, (by omega : 8 + (i - 8) = i)]
  · have h1 : ¬ i < 8 := by omega
    have h2 : ¬ i - 8 < 8 := by omega
    have h3 : i - 8 - 8 < 8 := by omega
    simp only [h1, h2, h3, decide_true, decide_false, Bool.true_and, if_true, if_false]
    congr 1
    omega
  · have h1 : ¬ i < 8 := by omega
    have h2 : ¬ i - 8 < 8 := by omega
    have h3 : ¬ i - 8 - 8 < 8 := by omega
    have h4 : i - 8 - 8 - 8 < 8 := by omega
    simp only [h1, h2, h3, h4, decide_true, decide_false, Bool.true_and, if_false]
    congr 1
    omega

/-- Concatenation as arithmetic. -/
theorem toNat_append_add {v w : Nat} (x : BitVec v) (y : BitVec w) : (x ++ y).toNat = x.toNat * 2 ^ w + y.toNat := by
  rw [BitVec.toNat_append, ← Nat.shiftLeft_add_eq_or_of_lt y.isLt, Nat.shiftLeft_eq]

end Machine

end Sys2Proof
end

