-- ==== Sys2Proof/Laws/Memory.lean ====
section
/-! SUPPORT. HOST_MEM: reads after writes, and that every memory operation keeps the canonical form (20_memory.md R50,
R52, R58, R66). -/

namespace Sys2Proof.Machine

/-- Reading a cell list after one byte was written to it. -/
theorem readCells_insertCell (a b : Nat) (v : Byte) (cells : List Host.Cell) :
    readCells b (insertCell a v cells) = if b = a then some v else readCells b cells := by
  induction cells with
  | nil => simp only [insertCell, readCells]; split <;> simp_all [eq_comm]
  | cons c rest ih =>
    simp only [insertCell]
    split
    · simp only [readCells]; split <;> simp_all [eq_comm]
    · split
      · subst_vars; simp only [readCells]; by_cases hb : b = c.1 <;> simp [hb, eq_comm]
      · simp only [readCells, ih]
        by_cases hb : c.1 = b
        · subst hb; simp_all [eq_comm]
        · simp [hb]

/-- Every cell of a written list is the new one or an old one. -/
theorem mem_insertCell {a : Nat} {v : Byte} {cells : List Host.Cell} {c : Host.Cell}
    (h : c ∈ insertCell a v cells) : c = (a, v) ∨ c ∈ cells := by
  induction cells with
  | nil => simpa [insertCell] using h
  | cons d rest ih =>
    simp only [insertCell] at h
    split at h
    · simpa using h
    · split at h
      · rcases List.mem_cons.mp h with h | h
        · exact .inl h
        · exact .inr (List.mem_cons_of_mem _ h)
      · rcases List.mem_cons.mp h with h | h
        · exact .inr (h ▸ List.mem_cons_self)
        · exact (ih h).imp id (List.mem_cons_of_mem _)

/-- Writing one byte keeps the addresses strictly rising. -/
theorem insertCell_pairwise (a : Nat) (v : Byte) (cells : List Host.Cell)
    (h : cells.Pairwise (fun x y => x.1 < y.1)) :
    (insertCell a v cells).Pairwise (fun x y => x.1 < y.1) := by
  induction cells with
  | nil => simp [insertCell]
  | cons c rest ih =>
    obtain ⟨hc, hr⟩ := List.pairwise_cons.mp h
    simp only [insertCell]
    split
    · rename_i hlt
      refine List.pairwise_cons.mpr ⟨fun d hd => ?_, h⟩
      rcases List.mem_cons.mp hd with rfl | hd
      · exact hlt
      · exact Nat.lt_trans hlt (hc d hd)
    · split
      · rename_i heq
        exact List.pairwise_cons.mpr ⟨fun d hd => by simpa [heq] using hc d hd, hr⟩
      · refine List.pairwise_cons.mpr ⟨fun d hd => ?_, ih hr⟩
        rcases mem_insertCell hd with rfl | hd
        · show c.1 < a; omega
        · exact hc d hd

/-- What a byte write does when the platform takes it. -/
theorem Memory.write_eq {cfg : Config} {m m' : Memory} {a : Word64} {v : Byte} (h : m.write cfg a v = some m') :
    cfg.hostMem.refuses a = false ∧ m' = { cells := insertCell a.toNat v m.cells } := by
  unfold Memory.write at h
  split at h
  · cases h
  · rename_i hr; exact ⟨by simpa using hr, (Option.some.inj h).symm⟩

/-- A byte write that the platform takes. -/
theorem Memory.write_of_accepted {cfg : Config} {m : Memory} {a : Word64} (v : Byte) (h : cfg.hostMem.refuses a = false) :
    m.write cfg a v = some { cells := insertCell a.toNat v m.cells } := by
  simp [Memory.write, h]

/-- A byte write that the platform refuses. -/
theorem Memory.write_of_refused {cfg : Config} {m : Memory} {a : Word64} (v : Byte) (h : cfg.hostMem.refuses a = true) :
    m.write cfg a v = none := by
  simp [Memory.write, h]

/-- A byte write keeps the canonical form. -/
theorem Memory.write_wf {cfg : Config} {m m' : Memory} {a : Word64} {v : Byte} (hm : m.wf) (h : m.write cfg a v = some m') : m'.wf := by
  obtain ⟨-, rfl⟩ := Memory.write_eq h
  refine ⟨insertCell_pairwise _ _ _ hm.1, fun c hc => ?_⟩
  rcases mem_insertCell hc with rfl | hc
  · exact a.isLt
  · exact hm.2 c hc

/-- A read after a byte write: the byte at its address, every other byte as before. -/
theorem Memory.read_write {cfg : Config} {m m' : Memory} {a : Word64} {v : Byte} (h : m.write cfg a v = some m') (b : Word64) :
    m'.read b = if b = a then some v else m.read b := by
  obtain ⟨-, rfl⟩ := Memory.write_eq h
  simp only [Memory.read, readCells_insertCell, BitVec.toNat_inj]

/-- The memory of reset is in canonical form. -/
theorem Memory.reset_wf : State.reset.written.wf := by
  simp [State.reset, Memory.wf]

/-- Writing consecutive bytes keeps the canonical form. -/
theorem Memory.writeBytes_wf {cfg : Config} {bs : List Byte} : ∀ {m m' : Memory} {a : Word64}, m.wf →
    m.writeBytes cfg a bs = .ok m' → m'.wf := by
  induction bs with
  | nil => intro m m' a hm h; cases h; exact hm
  | cons b rest ih =>
    intro m m' a hm h
    simp only [Memory.writeBytes] at h
    split at h
    · rename_i hw; exact ih (Memory.write_wf hm hw) h
    · cases h

/-- The offset of an address in a span, one address further on. -/
theorem offset_succ {a b : Word64} (h : b ≠ a) : (b - a).toNat = (b - (a + 1)).toNat + 1 := by
  have h1 : (b - a).toNat ≠ 0 := by
    intro h0
    apply h
    have : b - a = 0 := BitVec.eq_of_toNat_eq (by simpa using h0)
    simpa [BitVec.sub_eq_iff_eq_add] using this
  have h2 : b - (a + 1) = (b - a) - 1 := by
    rw [BitVec.sub_eq_add_neg, BitVec.sub_eq_add_neg, BitVec.sub_eq_add_neg, BitVec.neg_add, BitVec.sub_eq_add_neg,
      BitVec.add_assoc]
  have h3 := (b - a).isLt
  have h4 : (1 : Word64).toNat = 1 := rfl
  rw [h2, BitVec.toNat_sub (b - a), h4]
  omega

/-- What writing consecutive bytes does when the platform takes each of them: each byte at its address, every byte outside the
span as before. -/
theorem Memory.read_writeBytes {cfg : Config} {bs : List Byte} : ∀ {m m' : Memory} {a : Word64}, bs.length ≤ 2 ^ 64 →
    m.writeBytes cfg a bs = .ok m' → ∀ b, m'.read b = (bs[(b - a).toNat]?).or (m.read b) := by
  induction bs with
  | nil => intro m m' a _ h b; cases h; simp
  | cons v rest ih =>
    intro m m' a hl h b
    simp only [Memory.writeBytes] at h
    split at h
    · rename_i m1 hw
      rw [List.length_cons] at hl
      rw [ih (by omega) h b, Memory.read_write hw b]
      by_cases hb : b = a
      · subst hb
        have h1 : (b - (b + 1)).toNat = 2 ^ 64 - 1 := by
          have : b - (b + 1) = -1 := by
            rw [BitVec.sub_eq_add_neg, BitVec.neg_add, BitVec.sub_eq_add_neg, ← BitVec.add_assoc, BitVec.add_right_neg,
              BitVec.zero_add]
          rw [this]
          decide
        rw [h1, List.getElem?_eq_none (by omega)]
        simp
      · rw [offset_succ hb]
        simp [hb]
    · cases h

/-- Consecutive bytes are written when the platform takes each of them. -/
theorem Memory.writeBytes_of_accepted {cfg : Config} {bs : List Byte} : ∀ {m : Memory} {a : Word64},
    (∀ i, i < bs.length → cfg.hostMem.refuses (a + BitVec.ofNat 64 i) = false) → ∃ m', m.writeBytes cfg a bs = .ok m' := by
  induction bs with
  | nil => intro m a _; exact ⟨m, rfl⟩
  | cons v rest ih =>
    intro m a h
    have h0 := h 0 (by simp)
    simp only [BitVec.add_zero] at h0
    simp only [Memory.writeBytes, Memory.write_of_accepted v h0]
    apply ih
    intro i hi
    have := h (i + 1) (by simpa using hi)
    rw [BitVec.ofNat_add, BitVec.add_comm (BitVec.ofNat 64 i), ← BitVec.add_assoc] at this
    exact this

/-- Consecutive bytes stop at the first address the platform refuses. -/
theorem Memory.writeBytes_of_refused {cfg : Config} {bs : List Byte} : ∀ {m : Memory} {a : Word64} {i : Nat}, i < bs.length →
    (∀ j, j < i → cfg.hostMem.refuses (a + BitVec.ofNat 64 j) = false) → cfg.hostMem.refuses (a + BitVec.ofNat 64 i) = true →
    m.writeBytes cfg a bs = .error (a + BitVec.ofNat 64 i) := by
  induction bs with
  | nil => intro m a i hi; simp at hi
  | cons v rest ih =>
    intro m a i hi hj h
    cases i with
    | zero =>
      simp only [BitVec.add_zero] at h ⊢
      simp only [Memory.writeBytes, Memory.write_of_refused v h]
    | succ i =>
      have h0 := hj 0 (by omega)
      simp only [BitVec.add_zero] at h0
      simp only [Memory.writeBytes, Memory.write_of_accepted v h0]
      have e : ∀ k, a + BitVec.ofNat 64 (k + 1) = a + 1 + BitVec.ofNat 64 k := by
        intro k
        rw [BitVec.ofNat_add, BitVec.add_comm (BitVec.ofNat 64 k), ← BitVec.add_assoc]
        rfl
      rw [e]
      apply ih (by simpa using hi)
      · intro j h'; have := hj (j + 1) (by omega); rw [e] at this; exact this
      · rw [e] at h; exact h

/-- Of the parameters only HOST_MEM decides what a write does. -/
theorem Memory.writeBytes_congr {cfg cfg' : Config} (h : cfg.hostMem = cfg'.hostMem) (bs : List Byte) :
    ∀ (m : Memory) (a : Word64), m.writeBytes cfg a bs = m.writeBytes cfg' a bs := by
  induction bs with
  | nil => intro m a; rfl
  | cons b rest ih =>
    intro m a
    simp only [Memory.writeBytes, Memory.write, h, ih]

/-- Whether consecutive bytes are taken, and where not, does not depend on what has been written before (R50). -/
theorem Memory.writeBytes_outcome (cfg : Config) (bs : List Byte) : ∀ (m m' : Memory) (a : Word64),
    (∃ b, m.writeBytes cfg a bs = .error b ∧ m'.writeBytes cfg a bs = .error b) ∨
    (∃ m1 m2, m.writeBytes cfg a bs = .ok m1 ∧ m'.writeBytes cfg a bs = .ok m2) := by
  induction bs with
  | nil => intro m m' a; exact .inr ⟨_, _, rfl, rfl⟩
  | cons b rest ih =>
    intro m m' a
    rw [Memory.writeBytes, Memory.writeBytes]
    cases hr : cfg.hostMem.refuses a with
    | true =>
      rw [Memory.write_of_refused b hr, Memory.write_of_refused b hr]
      exact .inl ⟨a, rfl, rfl⟩
    | false =>
      rw [Memory.write_of_accepted b hr, Memory.write_of_accepted b hr]
      exact ih _ _ _

/-- Writing one list of bytes after another is writing both (R123). -/
theorem Memory.writeBytes_append (cfg : Config) (xs ys : List Byte) : ∀ (m : Memory) (a : Word64),
    m.writeBytes cfg a (xs ++ ys) =
      match m.writeBytes cfg a xs with
      | .ok m' => m'.writeBytes cfg (a + BitVec.ofNat 64 xs.length) ys
      | .error b => .error b := by
  induction xs with
  | nil => intro m a; simp [Memory.writeBytes]
  | cons b rest ih =>
    intro m a
    simp only [List.cons_append, Memory.writeBytes]
    cases m.write cfg a b with
    | none => rfl
    | some m1 =>
      simp only [ih, List.length_cons]
      have e : a + 1 + BitVec.ofNat 64 rest.length = a + BitVec.ofNat 64 (rest.length + 1) := by
        rw [BitVec.add_assoc, Nat.add_comm, BitVec.ofNat_add]
        rfl
      rw [e]

end Sys2Proof.Machine
end

