-- ==== Sys2Proof/Laws/State.lean ====
section
/-! SUPPORT. What each update of Machine/Ops.lean does to each field of State, so that no later proof unfolds a record
update. -/

namespace Sys2Proof.Machine

variable (s : State)

@[simp] theorem setOk_a0 : (setOk s).a0 = s.a0 := rfl
@[simp] theorem setOk_a1 : (setOk s).a1 = s.a1 := rfl
@[simp] theorem setOk_r0 : (setOk s).r0 = s.r0 := rfl
@[simp] theorem setOk_err : (setOk s).err = none := rfl
@[simp] theorem setOk_errSticky : (setOk s).errSticky = s.errSticky := rfl
@[simp] theorem setOk_dctl : (setOk s).dctl = s.dctl := rfl
@[simp] theorem setOk_gen : (setOk s).gen = s.gen := rfl
@[simp] theorem setOk_zipf : (setOk s).zipf = s.zipf := rfl
@[simp] theorem setOk_key : (setOk s).key = s.key := rfl
@[simp] theorem setOk_written : (setOk s).written = s.written := rfl
@[simp] theorem setOk_inputs : (setOk s).inputs = s.inputs := rfl
@[simp] theorem setOk_replies : (setOk s).replies = s.replies := rfl
@[simp] theorem setOk_freeCount : (setOk s).freeCount = s.freeCount := rfl

@[simp] theorem setR0_a0 (v : Word64) : (setR0 v s).a0 = s.a0 := rfl
@[simp] theorem setR0_a1 (v : Word64) : (setR0 v s).a1 = s.a1 := rfl
@[simp] theorem setR0_r0 (v : Word64) : (setR0 v s).r0 = v := rfl
@[simp] theorem setR0_err (v : Word64) : (setR0 v s).err = s.err := rfl
@[simp] theorem setR0_errSticky (v : Word64) : (setR0 v s).errSticky = s.errSticky := rfl
@[simp] theorem setR0_dctl (v : Word64) : (setR0 v s).dctl = s.dctl := rfl
@[simp] theorem setR0_gen (v : Word64) : (setR0 v s).gen = s.gen := rfl
@[simp] theorem setR0_zipf (v : Word64) : (setR0 v s).zipf = s.zipf := rfl
@[simp] theorem setR0_key (v : Word64) : (setR0 v s).key = s.key := rfl
@[simp] theorem setR0_written (v : Word64) : (setR0 v s).written = s.written := rfl
@[simp] theorem setR0_inputs (v : Word64) : (setR0 v s).inputs = s.inputs := rfl
@[simp] theorem setR0_replies (v : Word64) : (setR0 v s).replies = s.replies := rfl
@[simp] theorem setR0_freeCount (v : Word64) : (setR0 v s).freeCount = s.freeCount := rfl

@[simp] theorem setA0_a0 (v : Word64) : (setA0 v s).a0 = v := rfl
@[simp] theorem setA0_a1 (v : Word64) : (setA0 v s).a1 = s.a1 := rfl
@[simp] theorem setA0_r0 (v : Word64) : (setA0 v s).r0 = s.r0 := rfl
@[simp] theorem setA0_err (v : Word64) : (setA0 v s).err = s.err := rfl
@[simp] theorem setA0_errSticky (v : Word64) : (setA0 v s).errSticky = s.errSticky := rfl
@[simp] theorem setA0_dctl (v : Word64) : (setA0 v s).dctl = s.dctl := rfl
@[simp] theorem setA0_gen (v : Word64) : (setA0 v s).gen = s.gen := rfl
@[simp] theorem setA0_zipf (v : Word64) : (setA0 v s).zipf = s.zipf := rfl
@[simp] theorem setA0_key (v : Word64) : (setA0 v s).key = s.key := rfl
@[simp] theorem setA0_written (v : Word64) : (setA0 v s).written = s.written := rfl
@[simp] theorem setA0_inputs (v : Word64) : (setA0 v s).inputs = s.inputs := rfl
@[simp] theorem setA0_replies (v : Word64) : (setA0 v s).replies = s.replies := rfl
@[simp] theorem setA0_freeCount (v : Word64) : (setA0 v s).freeCount = s.freeCount := rfl

@[simp] theorem setA1_a0 (v : Word64) : (setA1 v s).a0 = s.a0 := rfl
@[simp] theorem setA1_a1 (v : Word64) : (setA1 v s).a1 = v := rfl
@[simp] theorem setA1_r0 (v : Word64) : (setA1 v s).r0 = s.r0 := rfl
@[simp] theorem setA1_err (v : Word64) : (setA1 v s).err = s.err := rfl
@[simp] theorem setA1_errSticky (v : Word64) : (setA1 v s).errSticky = s.errSticky := rfl
@[simp] theorem setA1_dctl (v : Word64) : (setA1 v s).dctl = s.dctl := rfl
@[simp] theorem setA1_gen (v : Word64) : (setA1 v s).gen = s.gen := rfl
@[simp] theorem setA1_zipf (v : Word64) : (setA1 v s).zipf = s.zipf := rfl
@[simp] theorem setA1_key (v : Word64) : (setA1 v s).key = s.key := rfl
@[simp] theorem setA1_written (v : Word64) : (setA1 v s).written = s.written := rfl
@[simp] theorem setA1_inputs (v : Word64) : (setA1 v s).inputs = s.inputs := rfl
@[simp] theorem setA1_replies (v : Word64) : (setA1 v s).replies = s.replies := rfl
@[simp] theorem setA1_freeCount (v : Word64) : (setA1 v s).freeCount = s.freeCount := rfl

@[simp] theorem setGen_a0 (g : Gen) : (setGen g s).a0 = s.a0 := rfl
@[simp] theorem setGen_a1 (g : Gen) : (setGen g s).a1 = s.a1 := rfl
@[simp] theorem setGen_r0 (g : Gen) : (setGen g s).r0 = s.r0 := rfl
@[simp] theorem setGen_err (g : Gen) : (setGen g s).err = s.err := rfl
@[simp] theorem setGen_errSticky (g : Gen) : (setGen g s).errSticky = s.errSticky := rfl
@[simp] theorem setGen_dctl (g : Gen) : (setGen g s).dctl = s.dctl := rfl
@[simp] theorem setGen_gen (g : Gen) : (setGen g s).gen = g := rfl
@[simp] theorem setGen_zipf (g : Gen) : (setGen g s).zipf = s.zipf := rfl
@[simp] theorem setGen_key (g : Gen) : (setGen g s).key = s.key := rfl
@[simp] theorem setGen_written (g : Gen) : (setGen g s).written = s.written := rfl
@[simp] theorem setGen_inputs (g : Gen) : (setGen g s).inputs = s.inputs := rfl
@[simp] theorem setGen_replies (g : Gen) : (setGen g s).replies = s.replies := rfl
@[simp] theorem setGen_freeCount (g : Gen) : (setGen g s).freeCount = s.freeCount := rfl

@[simp] theorem setZipf_a0 (z : Zipf) : (setZipf z s).a0 = s.a0 := rfl
@[simp] theorem setZipf_a1 (z : Zipf) : (setZipf z s).a1 = s.a1 := rfl
@[simp] theorem setZipf_r0 (z : Zipf) : (setZipf z s).r0 = s.r0 := rfl
@[simp] theorem setZipf_err (z : Zipf) : (setZipf z s).err = s.err := rfl
@[simp] theorem setZipf_errSticky (z : Zipf) : (setZipf z s).errSticky = s.errSticky := rfl
@[simp] theorem setZipf_dctl (z : Zipf) : (setZipf z s).dctl = s.dctl := rfl
@[simp] theorem setZipf_gen (z : Zipf) : (setZipf z s).gen = s.gen := rfl
@[simp] theorem setZipf_zipf (z : Zipf) : (setZipf z s).zipf = z := rfl
@[simp] theorem setZipf_key (z : Zipf) : (setZipf z s).key = s.key := rfl
@[simp] theorem setZipf_written (z : Zipf) : (setZipf z s).written = s.written := rfl
@[simp] theorem setZipf_inputs (z : Zipf) : (setZipf z s).inputs = s.inputs := rfl
@[simp] theorem setZipf_replies (z : Zipf) : (setZipf z s).replies = s.replies := rfl
@[simp] theorem setZipf_freeCount (z : Zipf) : (setZipf z s).freeCount = s.freeCount := rfl

@[simp] theorem setKey_a0 (k : Key) : (setKey k s).a0 = s.a0 := rfl
@[simp] theorem setKey_a1 (k : Key) : (setKey k s).a1 = s.a1 := rfl
@[simp] theorem setKey_r0 (k : Key) : (setKey k s).r0 = s.r0 := rfl
@[simp] theorem setKey_err (k : Key) : (setKey k s).err = s.err := rfl
@[simp] theorem setKey_errSticky (k : Key) : (setKey k s).errSticky = s.errSticky := rfl
@[simp] theorem setKey_dctl (k : Key) : (setKey k s).dctl = s.dctl := rfl
@[simp] theorem setKey_gen (k : Key) : (setKey k s).gen = s.gen := rfl
@[simp] theorem setKey_zipf (k : Key) : (setKey k s).zipf = s.zipf := rfl
@[simp] theorem setKey_key (k : Key) : (setKey k s).key = k := rfl
@[simp] theorem setKey_written (k : Key) : (setKey k s).written = s.written := rfl
@[simp] theorem setKey_inputs (k : Key) : (setKey k s).inputs = s.inputs := rfl
@[simp] theorem setKey_replies (k : Key) : (setKey k s).replies = s.replies := rfl
@[simp] theorem setKey_freeCount (k : Key) : (setKey k s).freeCount = s.freeCount := rfl

@[simp] theorem setDctl_a0 (d : Dctl) : (setDctl d s).a0 = s.a0 := rfl
@[simp] theorem setDctl_a1 (d : Dctl) : (setDctl d s).a1 = s.a1 := rfl
@[simp] theorem setDctl_r0 (d : Dctl) : (setDctl d s).r0 = s.r0 := rfl
@[simp] theorem setDctl_err (d : Dctl) : (setDctl d s).err = s.err := rfl
@[simp] theorem setDctl_errSticky (d : Dctl) : (setDctl d s).errSticky = s.errSticky := rfl
@[simp] theorem setDctl_dctl (d : Dctl) : (setDctl d s).dctl = d := rfl
@[simp] theorem setDctl_gen (d : Dctl) : (setDctl d s).gen = s.gen := rfl
@[simp] theorem setDctl_zipf (d : Dctl) : (setDctl d s).zipf = s.zipf := rfl
@[simp] theorem setDctl_key (d : Dctl) : (setDctl d s).key = s.key := rfl
@[simp] theorem setDctl_written (d : Dctl) : (setDctl d s).written = s.written := rfl
@[simp] theorem setDctl_inputs (d : Dctl) : (setDctl d s).inputs = s.inputs := rfl
@[simp] theorem setDctl_replies (d : Dctl) : (setDctl d s).replies = s.replies := rfl
@[simp] theorem setDctl_freeCount (d : Dctl) : (setDctl d s).freeCount = s.freeCount := rfl

@[simp] theorem setWritten_a0 (m : Memory) : (setWritten m s).a0 = s.a0 := rfl
@[simp] theorem setWritten_a1 (m : Memory) : (setWritten m s).a1 = s.a1 := rfl
@[simp] theorem setWritten_r0 (m : Memory) : (setWritten m s).r0 = s.r0 := rfl
@[simp] theorem setWritten_err (m : Memory) : (setWritten m s).err = s.err := rfl
@[simp] theorem setWritten_errSticky (m : Memory) : (setWritten m s).errSticky = s.errSticky := rfl
@[simp] theorem setWritten_dctl (m : Memory) : (setWritten m s).dctl = s.dctl := rfl
@[simp] theorem setWritten_gen (m : Memory) : (setWritten m s).gen = s.gen := rfl
@[simp] theorem setWritten_zipf (m : Memory) : (setWritten m s).zipf = s.zipf := rfl
@[simp] theorem setWritten_key (m : Memory) : (setWritten m s).key = s.key := rfl
@[simp] theorem setWritten_written (m : Memory) : (setWritten m s).written = m := rfl
@[simp] theorem setWritten_inputs (m : Memory) : (setWritten m s).inputs = s.inputs := rfl
@[simp] theorem setWritten_replies (m : Memory) : (setWritten m s).replies = s.replies := rfl
@[simp] theorem setWritten_freeCount (m : Memory) : (setWritten m s).freeCount = s.freeCount := rfl

@[simp] theorem setInputs_a0 (is : List HostInput) : (setInputs is s).a0 = s.a0 := rfl
@[simp] theorem setInputs_a1 (is : List HostInput) : (setInputs is s).a1 = s.a1 := rfl
@[simp] theorem setInputs_r0 (is : List HostInput) : (setInputs is s).r0 = s.r0 := rfl
@[simp] theorem setInputs_err (is : List HostInput) : (setInputs is s).err = s.err := rfl
@[simp] theorem setInputs_errSticky (is : List HostInput) : (setInputs is s).errSticky = s.errSticky := rfl
@[simp] theorem setInputs_dctl (is : List HostInput) : (setInputs is s).dctl = s.dctl := rfl
@[simp] theorem setInputs_gen (is : List HostInput) : (setInputs is s).gen = s.gen := rfl
@[simp] theorem setInputs_zipf (is : List HostInput) : (setInputs is s).zipf = s.zipf := rfl
@[simp] theorem setInputs_key (is : List HostInput) : (setInputs is s).key = s.key := rfl
@[simp] theorem setInputs_written (is : List HostInput) : (setInputs is s).written = s.written := rfl
@[simp] theorem setInputs_inputs (is : List HostInput) : (setInputs is s).inputs = is := rfl
@[simp] theorem setInputs_replies (is : List HostInput) : (setInputs is s).replies = s.replies := rfl
@[simp] theorem setInputs_freeCount (is : List HostInput) : (setInputs is s).freeCount = s.freeCount := rfl

@[simp] theorem raiseError_a0 (e : CmdError) : (raiseError e s).a0 = s.a0 := by cases e <;> rfl
@[simp] theorem raiseError_a1 (e : CmdError) : (raiseError e s).a1 = s.a1 := by cases e <;> rfl
@[simp] theorem raiseError_r0 (e : CmdError) : (raiseError e s).r0 = s.r0 := by cases e <;> rfl
@[simp] theorem raiseError_err (e : CmdError) : (raiseError e s).err = some e := by cases e <;> rfl
@[simp] theorem raiseError_errSticky (e : CmdError) : (raiseError e s).errSticky = true := by cases e <;> rfl
@[simp] theorem raiseError_dctl (e : CmdError) : (raiseError e s).dctl = s.dctl := by cases e <;> rfl
@[simp] theorem raiseError_gen (e : CmdError) : (raiseError e s).gen = s.gen := by cases e <;> rfl
@[simp] theorem raiseError_key (e : CmdError) : (raiseError e s).key = s.key := by cases e <;> rfl
@[simp] theorem raiseError_written (e : CmdError) : (raiseError e s).written = s.written := by cases e <;> rfl
@[simp] theorem raiseError_inputs (e : CmdError) : (raiseError e s).inputs = s.inputs := by cases e <;> rfl
@[simp] theorem raiseError_replies (e : CmdError) : (raiseError e s).replies = s.replies := by cases e <;> rfl

@[simp] theorem raiseError_zipf_illegal : (raiseError .illegalCommand s).zipf = s.zipf := rfl
@[simp] theorem raiseError_zipf_notInitialised : (raiseError .notInitialised s).zipf = s.zipf := rfl
@[simp] theorem raiseError_zipf_domain : (raiseError .domainError s).zipf = unspecifiedZipf s.freeCount := rfl
@[simp] theorem raiseError_zipf_valid_domain : (raiseError .domainError s).zipf.valid = false := rfl
@[simp] theorem raiseError_freeCount_illegal : (raiseError .illegalCommand s).freeCount = s.freeCount := rfl
@[simp] theorem raiseError_freeCount_notInitialised : (raiseError .notInitialised s).freeCount = s.freeCount := rfl
@[simp] theorem raiseError_freeCount_domain : (raiseError .domainError s).freeCount = s.freeCount + 6 := rfl

/-- Two states with the same fields are the same state. -/
theorem State.ext_fields {s t : State} (h0 : s.a0 = t.a0) (h1 : s.a1 = t.a1) (h2 : s.r0 = t.r0) (h3 : s.err = t.err)
    (h4 : s.errSticky = t.errSticky) (h5 : s.dctl = t.dctl) (h6 : s.gen = t.gen) (h7 : s.zipf = t.zipf)
    (h8 : s.key = t.key) (h9 : s.written = t.written) (h10 : s.inputs = t.inputs) (h11 : s.replies = t.replies)
    (h12 : s.freeCount = t.freeCount) : s = t := by
  cases s
  cases t
  simp only at h0 h1 h2 h3 h4 h5 h6 h7 h8 h9 h10 h11 h12
  simp only [h0, h1, h2, h3, h4, h5, h6, h7, h8, h9, h10, h11, h12]

end Sys2Proof.Machine
end

