-- ==== Sys2Proof/Laws/Generator.lean ====
section
/-! SUPPORT. What the shared operations of the generator can do: the dispatch flag, Refill, NextByte, the word draws and the
loop of GENERATE (41_generator.md R121 to R129, 45_dispatch.md R197). -/

namespace Sys2Proof.Machine

variable (cfg : Config) (s : State)

/-- The decided BUF_LAYOUT. -/
theorem config_bufLayout : config.bufLayout = wordInterleaved := rfl

/-- The decided SEED_EXPAND. -/
theorem config_seedExpand (seed : Word64) : config.seedExpand seed = seed := rfl

/-- A touched flag is determined. -/
theorem touchDctl_mode (d : Dctl) : (touchDctl cfg d).mode ≠ .undetermined := by
  obtain ⟨m, dis⟩ := d
  cases m <;> simp only [touchDctl, probe] <;> (try split) <;> simp

/-- A determined flag is left alone. -/
theorem touchDctl_of_ne {d : Dctl} (h : d.mode ≠ .undetermined) : touchDctl cfg d = d := by
  obtain ⟨m, dis⟩ := d
  cases m with
  | undetermined => exact absurd rfl h
  | portable => rfl
  | accelerated => rfl

/-- Touching the flag again changes nothing. -/
@[simp] theorem touchDctl_idem (d : Dctl) : touchDctl cfg (touchDctl cfg d) = touchDctl cfg d :=
  touchDctl_of_ne cfg (touchDctl_mode cfg d)

@[simp] theorem touchDctl_disabled (d : Dctl) : (touchDctl cfg d).disabled = d.disabled := by
  obtain ⟨m, dis⟩ := d
  cases m <;> rfl

/-- `Refill()` as one record. -/
theorem refill_eq : refill cfg s = { s with dctl := touchDctl cfg s.dctl, gen := refillGen cfg s.gen } := rfl

/-- The refill test does nothing to a cursor below 256. -/
theorem refillIfExhausted_of_lt (h : s.gen.cursor.val < 256) : refillIfExhausted cfg s = s := by
  rw [refillIfExhausted, if_neg (by omega)]

/-- The refill test refills at 256. -/
theorem refillIfExhausted_of_eq (h : s.gen.cursor.val = 256) : refillIfExhausted cfg s = refill cfg s := by
  rw [refillIfExhausted, if_pos h]

/-- After the refill test a byte can be read. -/
theorem refillIfExhausted_cursor_lt : (refillIfExhausted cfg s).gen.cursor.val < 256 := by
  have := s.gen.cursor.isLt
  by_cases h : s.gen.cursor.val = 256
  · rw [refillIfExhausted_of_eq cfg s h, refill_eq]; simp [refillGen]
  · rw [refillIfExhausted_of_lt cfg s (by omega)]; omega

/-- Moving the cursor within its range. -/
theorem moveCursor_eq {c : Nat} (h : c < 257) :
    moveCursor c s = { s with gen := { s.gen with cursor := ⟨c, h⟩ } } := by
  simp only [moveCursor, setGen]
  congr 2
  exact Fin.ext (Nat.mod_eq_of_lt h)

@[simp] theorem bufByte_of_lt (g : Gen) {i : Nat} (h : i < 256) : bufByte g i = g.buffer[i] := by
  simp only [bufByte, Nat.mod_eq_of_lt h]

/-- Where each byte of a refill comes from (R121). -/
theorem fillBuffer_getElem (c : Word64) {i : Nat} (h : i < 256) :
    (fillBuffer config c)[i] =
      byteLE ((mixWords config (c + BitVec.ofNat 64 (i / 4 % 4)))[i / 16]'(by omega)) (i % 4) := by
  have h1 : (4 * (i / 16) + i % 4) % 64 = 4 * (i / 16) + i % 4 := Nat.mod_eq_of_lt (by omega)
  have e1 : (4 * (i / 16) + i % 4) / 4 = i / 16 := by omega
  have e2 : (4 * (i / 16) + i % 4) % 4 = i % 4 := by omega
  have lanes : (#v[mixWords config c, mixWords config (c + 1), mixWords config (c + 2), mixWords config (c + 3)])[i / 4 % 4]
      = mixWords config (c + BitVec.ofNat 64 (i / 4 % 4)) := by
    rcases (by omega : i / 4 % 4 = 0 ∨ i / 4 % 4 = 1 ∨ i / 4 % 4 = 2 ∨ i / 4 % 4 = 3) with h | h | h | h <;>
      simp [h]
  rw [fillBuffer, tabulate_getElem]
  have lanes' : (#v[mixWords config c, mixWords config (c + 1), mixWords config (c + 2),
      mixWords config (c + 3)])[(config.bufLayout i).1] = mixWords config (c + BitVec.ofNat 64 (i / 4 % 4)) := lanes
  rw [lanes']
  simp only [blockByte, config_bufLayout, wordInterleaved, Fin.val_ofNat, h1, e1, e2]

/-- The stream of a seed is the refills from it, one after another (R121, R129). -/
theorem streamByte_eq (seed : Word64) (m : Nat) {i : Nat} (h : i < 256) :
    streamByte seed (256 * m + i) =
      (fillBuffer config (config.seedExpand seed + BitVec.ofNat 64 (4 * m)))[i] := by
  have e1 : (256 * m + i) % 256 = i := by omega
  have e2 : (256 * m + i) / 256 = m := by omega
  have e3 : (256 * m + i) % 4 = i % 4 := by omega
  have e4 : i / 4 / 4 = i / 16 := by omega
  rw [fillBuffer_getElem]
  simp only [streamByte, e1, e2, e3, e4]

/-- Byte `t` of word `j` of `MixWords` of a counter, for `j < 16`. -/
def laneByte (c : Word64) (j t : Nat) : Byte := byteLE ((mixWords config c)[j % 16]'(Nat.mod_lt _ (by decide))) t

/-- A byte of a stream by its lane, word and byte numbers (R129, with the identity for SEED_EXPAND, R122). -/
theorem streamByte_lane (seed : Word64) (p : Nat) :
    streamByte seed p = laneByte (seed + BitVec.ofNat 64 (4 * (p / 256) + p / 4 % 4)) (p % 256 / 16) (p % 4) := by
  have e1 : p % 256 / 4 / 4 = p % 256 / 16 % 16 := by omega
  have e2 : p % 256 / 4 % 4 = p / 4 % 4 := by omega
  simp only [streamByte, laneByte, e1, e2, config_seedExpand, BitVec.ofNat_add, BitVec.add_assoc]

/-- What a generator at a position of a stream has in its buffer. -/
theorem AtStream.byte {g : Gen} {seed : Word64} {p j : Nat} (h : AtStream g seed p) (hj : g.cursor.val + j < 256) :
    g.buffer[g.cursor.val + j] = streamByte seed (p + j) := by
  obtain ⟨-, q, hc, hp, hb⟩ := h
  obtain ⟨m, rfl⟩ : ∃ m, q = m + 1 := ⟨q - 1, by omega⟩
  have hpj : p + j = 256 * m + (g.cursor.val + j) := by omega
  have hsub : g.counter - 4 = config.seedExpand seed + BitVec.ofNat 64 (4 * m) := by
    rw [hc, Nat.mul_add, BitVec.ofNat_add, ← BitVec.add_assoc]
    exact BitVec.add_sub_cancel _ _
  rw [hpj, streamByte_eq _ _ hj, ← hsub]
  simp only [hb (by omega)]

/-- A refill of an exhausted buffer leaves the position in the stream as it was. -/
theorem AtStream.refillGen {g : Gen} {seed : Word64} {p : Nat} (h : AtStream g seed p) (hc : g.cursor.val = 256) :
    AtStream (refillGen config g) seed p := by
  obtain ⟨hv, q, hq, hp, -⟩ := h
  refine ⟨hv, q + 1, ?_, ?_, fun _ => ?_⟩
  · simp only [Machine.refillGen, hq]
    rw [Nat.mul_add, BitVec.ofNat_add, ← BitVec.add_assoc]
    rfl
  · simp only [Machine.refillGen, Fin.val_zero]
    omega
  · simp only [Machine.refillGen]
    exact congrArg _ (BitVec.add_sub_cancel _ _).symm

/-- The refill test leaves the position in the stream as it was. -/
theorem AtStream.refillIfExhausted {s : State} {seed : Word64} {p : Nat} (h : AtStream s.gen seed p) :
    AtStream (refillIfExhausted config s).gen seed p := by
  by_cases hc : s.gen.cursor.val = 256
  · rw [refillIfExhausted_of_eq config s hc]; exact h.refillGen hc
  · rw [refillIfExhausted_of_lt config s (by have := s.gen.cursor.isLt; omega)]; exact h

/-- Moving the cursor on moves the position as far. -/
theorem AtStream.moveCursor {s : State} {seed : Word64} {p c : Nat} (h : AtStream s.gen seed p)
    (hc : s.gen.cursor.val ≤ c) (hc' : c ≤ 256) :
    AtStream (moveCursor c s).gen seed (p + (c - s.gen.cursor.val)) := by
  obtain ⟨hv, q, hq, hp, hb⟩ := h
  rw [moveCursor_eq s (by omega : c < 257)]
  exact ⟨hv, q, hq, by show p + (c - s.gen.cursor.val) + (256 - c) = _; omega, fun h' => hb (by simp only at h'; omega)⟩

/-- `NextByte()` delivers the next byte of the stream (R128, R129). -/
theorem AtStream.nextByte {s : State} {seed : Word64} {p : Nat} (h : AtStream s.gen seed p) :
    (nextByte config s).1 = streamByte seed p ∧ AtStream (nextByte config s).2.gen seed (p + 1) := by
  have hr := h.refillIfExhausted
  have hlt := refillIfExhausted_cursor_lt config s
  constructor
  · show bufByte _ _ = _
    rw [bufByte_of_lt _ hlt]
    exact hr.byte (j := 0) hlt
  · have := hr.moveCursor (c := (Machine.refillIfExhausted config s).gen.cursor.val + 1) (by omega) (by omega)
    rwa [show p + ((Machine.refillIfExhausted config s).gen.cursor.val + 1
      - (Machine.refillIfExhausted config s).gen.cursor.val) = p + 1 by omega] at this

/-- The first `n` bytes the generator delivers, and the state after them (R128). -/
def drawBytes : Nat → State → List Byte × State
  | 0, s => ([], s)
  | n + 1, s => ((nextByte cfg s).1 :: (drawBytes n (nextByte cfg s).2).1, (drawBytes n (nextByte cfg s).2).2)

@[simp] theorem drawBytes_length (n : Nat) : (drawBytes cfg n s).1.length = n := by
  induction n generalizing s with
  | zero => rfl
  | succ n ih => simp [drawBytes, ih]

/-- The bytes drawn are those of the stream. -/
theorem AtStream.drawBytes {n : Nat} : ∀ {s : State} {seed : Word64} {p : Nat}, AtStream s.gen seed p →
    (∀ i, i < n → (drawBytes config n s).1[i]? = some (streamByte seed (p + i))) ∧
      AtStream (drawBytes config n s).2.gen seed (p + n) := by
  induction n with
  | zero => intro s seed p h; exact ⟨fun i hi => absurd hi (by omega), h⟩
  | succ n ih =>
    intro s seed p h
    obtain ⟨hb, hs⟩ := h.nextByte
    obtain ⟨h1, h2⟩ := ih hs
    refine ⟨fun i hi => ?_, ?_⟩
    · cases i with
      | zero => simp [Machine.drawBytes, hb]
      | succ i =>
        have := h1 i (by omega)
        simp only [Machine.drawBytes, List.getElem?_cons_succ, this]
        congr 2
        omega
    · rw [show p + (n + 1) = p + 1 + n by omega]
      exact h2

/-- What a draw of a byte leaves alone: all but the generator and the dispatch flag. -/
theorem nextByte_frame : ∃ g d, (nextByte cfg s).2 = { s with gen := g, dctl := d } := by
  by_cases hc : s.gen.cursor.val = 256
  · refine ⟨(nextByte cfg s).2.gen, (nextByte cfg s).2.dctl, ?_⟩
    simp only [nextByte, refillIfExhausted_of_eq cfg s hc, refill_eq, moveCursor, setGen]
  · refine ⟨(nextByte cfg s).2.gen, (nextByte cfg s).2.dctl, ?_⟩
    simp only [nextByte, refillIfExhausted_of_lt cfg s (by have := s.gen.cursor.isLt; omega), moveCursor, setGen]

/-- A draw of a byte depends on the generator and the refills alone, but for the dispatch flag. -/
theorem nextByte_congr {cfg cfg' : Config} (hf : fillBuffer cfg = fillBuffer cfg') {s t : State} (h : s.gen = t.gen) :
    (nextByte cfg s).1 = (nextByte cfg' t).1 ∧ (nextByte cfg s).2.gen = (nextByte cfg' t).2.gen := by
  by_cases hc : s.gen.cursor.val = 256
  · have hc' := h ▸ hc
    simp only [nextByte, refillIfExhausted_of_eq cfg s hc, refillIfExhausted_of_eq cfg' t hc', refill_eq, refillGen, hf,
      moveCursor, setGen, h, and_self]
  · have hc' : ¬ t.gen.cursor.val = 256 := h ▸ hc
    simp only [nextByte, refillIfExhausted_of_lt cfg s (by have := s.gen.cursor.isLt; omega),
      refillIfExhausted_of_lt cfg' t (by have := t.gen.cursor.isLt; omega), moveCursor, setGen, h, and_self]

/-- Drawing does not read HOST_MEM. -/
theorem nextByte_setWritten (m : Memory) :
    nextByte cfg (setWritten m s) = ((nextByte cfg s).1, setWritten m (nextByte cfg s).2) := by
  by_cases hc : s.gen.cursor.val = 256
  · rw [nextByte, nextByte, refillIfExhausted_of_eq cfg s hc, refillIfExhausted_of_eq cfg (setWritten m s) hc]
    rfl
  · have hlt : s.gen.cursor.val < 256 := by have := s.gen.cursor.isLt; omega
    rw [nextByte, nextByte, refillIfExhausted_of_lt cfg s hlt, refillIfExhausted_of_lt cfg (setWritten m s) hlt]
    rfl

/-- Drawing does not read HOST_MEM. -/
theorem drawBytes_setWritten (m : Memory) (n : Nat) :
    drawBytes cfg n (setWritten m s) = ((drawBytes cfg n s).1, setWritten m (drawBytes cfg n s).2) := by
  induction n generalizing s with
  | zero => rfl
  | succ n ih => simp only [drawBytes, nextByte_setWritten, ih]

/-- What drawing bytes leaves alone: all but the generator and the dispatch flag. -/
theorem drawBytes_frame (n : Nat) : ∃ g d, (drawBytes cfg n s).2 = { s with gen := g, dctl := d } := by
  induction n generalizing s with
  | zero => exact ⟨s.gen, s.dctl, rfl⟩
  | succ n ih =>
    obtain ⟨g, d, h⟩ := nextByte_frame cfg s
    obtain ⟨g', d', h'⟩ := ih (nextByte cfg s).2
    exact ⟨g', d', by rw [drawBytes, h', h]⟩

/-- The loop of GENERATE is a draw of bytes, written in order (R123). -/
theorem generateBytes_eq (n : Nat) (a : Word64) : generateBytes cfg n a s =
    match s.written.writeBytes cfg a (drawBytes cfg n s).1 with
    | .ok m => .ok (setWritten m (drawBytes cfg n s).2)
    | .error b => .error b := by
  induction n generalizing s a with
  | zero => rfl
  | succ n ih =>
    have hm : (nextByte cfg s).2.written = s.written := by
      obtain ⟨g, d, h⟩ := nextByte_frame cfg s
      rw [h]
    simp only [generateBytes, drawBytes, Memory.writeBytes, hm]
    cases s.written.write cfg a (nextByte cfg s).1 with
    | none => rfl
    | some m =>
      simp only [ih, drawBytes_setWritten, setWritten_written]
      rfl

/-- Drawing `m + n` bytes is drawing `m` and then `n` (stream continuity, R123). -/
theorem drawBytes_add (m n : Nat) : drawBytes cfg (m + n) s =
    ((drawBytes cfg m s).1 ++ (drawBytes cfg n (drawBytes cfg m s).2).1, (drawBytes cfg n (drawBytes cfg m s).2).2) := by
  induction m generalizing s with
  | zero => simp [drawBytes]
  | succ m ih => simp only [Nat.succ_add m n, drawBytes, ih, List.cons_append]

/-- Where drawing bytes leaves the generator and the dispatch flag (R123). -/
theorem drawBytes_gen (n : Nat) :
    (drawBytes cfg n s).2.gen.valid = s.gen.valid ∧
    (drawBytes cfg n s).2.gen.counter = s.gen.counter + BitVec.ofNat 64 (4 * refillsFor s.gen.cursor.val n) ∧
    (drawBytes cfg n s).2.gen.cursor.val = cursorAfter s.gen.cursor.val n ∧
    (refillsFor s.gen.cursor.val n = 0 → (drawBytes cfg n s).2.gen.buffer = s.gen.buffer) ∧
    (drawBytes cfg n s).2.dctl = if refillsFor s.gen.cursor.val n = 0 then s.dctl else touchDctl cfg s.dctl := by
  induction n generalizing s with
  | zero => simp [drawBytes, refillsFor, cursorAfter]
  | succ n ih =>
    obtain ⟨h1, h2, h3, h4, h5⟩ := ih (nextByte cfg s).2
    have hlt := s.gen.cursor.isLt
    simp only [drawBytes]
    by_cases hc : s.gen.cursor.val = 256
    · have hg : (nextByte cfg s).2 =
          { s with dctl := touchDctl cfg s.dctl, gen := { refillGen cfg s.gen with cursor := ⟨1, by omega⟩ } } := by
        simp only [nextByte, refillIfExhausted_of_eq cfg s hc, refill_eq]
        rw [moveCursor_eq _ (by simp [refillGen])]
        rfl
      rw [hg] at h1 h2 h3 h4 h5 ⊢
      simp only [refillGen] at h1 h2 h3 h4 h5 ⊢
      have hr : refillsFor s.gen.cursor.val (n + 1) = refillsFor 1 n + 1 := by
        simp only [refillsFor, hc]; split <;> simp <;> omega
      refine ⟨h1, ?_, ?_, ?_, ?_⟩
      · rw [h2, hr, Nat.mul_add, Nat.add_comm, BitVec.ofNat_add, BitVec.add_assoc]
        rfl
      · rw [h3]; simp only [cursorAfter, hc]; split <;> (simp; try omega)
      · rw [hr]; intro h; omega
      · rw [h5, hr, touchDctl_idem]; simp
    · have hg : (nextByte cfg s).2 =
          { s with gen := { s.gen with cursor := ⟨s.gen.cursor.val + 1, by omega⟩ } } := by
        simp only [nextByte, refillIfExhausted_of_lt cfg s (by omega)]
        rw [moveCursor_eq _ (by omega)]
      rw [hg] at h1 h2 h3 h4 h5 ⊢
      simp only at h1 h2 h3 h4 h5 ⊢
      have hr : refillsFor s.gen.cursor.val (n + 1) = refillsFor (s.gen.cursor.val + 1) n := by
        simp only [refillsFor]; split <;> simp <;> omega
      refine ⟨h1, by rw [h2, hr], ?_, by rw [hr]; exact h4, by rw [h5, hr]⟩
      rw [h3]; simp only [cursorAfter]; split <;> (simp; try omega)

/-- Drawing depends on the generator and the refills alone, but for the dispatch flag. -/
theorem drawBytes_congr {cfg cfg' : Config} (hf : fillBuffer cfg = fillBuffer cfg') {s t : State} (h : s.gen = t.gen)
    (n : Nat) : (drawBytes cfg n s).1 = (drawBytes cfg' n t).1 ∧
      (drawBytes cfg n s).2.gen = (drawBytes cfg' n t).2.gen := by
  induction n generalizing s t with
  | zero => exact ⟨rfl, h⟩
  | succ n ih =>
    obtain ⟨h1, h2⟩ := nextByte_congr hf h
    obtain ⟨h3, h4⟩ := ih h2
    simp only [drawBytes, h1, h3, h4, and_self]

/-- The dispatch flag after drawing depends on the cursor and the flag alone. -/
theorem drawBytes_dctl_congr {s t : State} (h : s.gen = t.gen) (hd : s.dctl = t.dctl) (n : Nat) :
    (drawBytes cfg n s).2.dctl = (drawBytes cfg n t).2.dctl := by
  rw [(drawBytes_gen cfg s n).2.2.2.2, (drawBytes_gen cfg t n).2.2.2.2, h, hd]

/-- What drawing bytes leaves in the buffer: the last refill, if there was one. -/
theorem drawBytes_buffer (n : Nat) (h : refillsFor s.gen.cursor.val n ≠ 0) :
    (drawBytes cfg n s).2.gen.buffer = fillBuffer cfg ((drawBytes cfg n s).2.gen.counter - 4) := by
  induction n generalizing s with
  | zero => simp [refillsFor] at h
  | succ n ih =>
    have hlt := s.gen.cursor.isLt
    obtain ⟨-, h2, -, h4, -⟩ := drawBytes_gen cfg (nextByte cfg s).2 n
    simp only [drawBytes]
    by_cases hr : refillsFor (nextByte cfg s).2.gen.cursor.val n = 0
    · rw [h4 hr, h2, hr]
      by_cases hc : s.gen.cursor.val = 256
      · have hg : (nextByte cfg s).2.gen = { refillGen cfg s.gen with cursor := ⟨1, by omega⟩ } := by
          simp only [nextByte, refillIfExhausted_of_eq cfg s hc, refill_eq]
          rw [moveCursor_eq _ (by simp [refillGen])]
          rfl
        rw [hg]
        simp only [refillGen, Nat.mul_zero, BitVec.add_sub_cancel, BitVec.ofNat_eq_ofNat, BitVec.add_zero]
      · exfalso
        have hg : (nextByte cfg s).2.gen.cursor.val = s.gen.cursor.val + 1 := by
          simp only [nextByte, refillIfExhausted_of_lt cfg s (by omega)]
          rw [moveCursor_eq _ (by omega)]
        rw [hg] at hr
        apply h
        simp only [refillsFor] at hr ⊢
        split at hr <;> simp <;> omega
    · exact ih _ hr

/-- A word draw inside the buffer (R124). -/
theorem nextWord_inBuffer (h : s.gen.cursor.val ≤ 252) :
    nextWord cfg s = (bufWord s.gen (alignUp s.gen.cursor.val / 4),
      { s with gen := { s.gen with cursor := ⟨alignUp s.gen.cursor.val + 4, by unfold alignUp; omega⟩ } }) := by
  have e : alignCursor s =
      { s with gen := { s.gen with cursor := ⟨alignUp s.gen.cursor.val, by unfold alignUp; omega⟩ } } := by
    rw [alignCursor, moveCursor_eq s (by omega)]
    rfl
  have hw : alignUp s.gen.cursor.val ≤ 252 := by unfold alignUp; omega
  have hr := refillIfExhausted_of_lt cfg (alignCursor s) (by rw [e]; show alignUp _ < 256; omega)
  rw [e] at hr
  simp only [nextWord, e, hr]
  rw [moveCursor_eq _ (by show alignUp _ + 4 < 257; omega)]
  rfl

/-- The refilled generator, field by field. -/
@[simp] theorem refillGen_cursor (g : Gen) : (refillGen cfg g).cursor = 0 := rfl

@[simp] theorem refillGen_valid (g : Gen) : (refillGen cfg g).valid = g.valid := rfl

@[simp] theorem refillGen_counter (g : Gen) : (refillGen cfg g).counter = g.counter + 4 := rfl

@[simp] theorem refillGen_buffer (g : Gen) : (refillGen cfg g).buffer = fillBuffer cfg g.counter := rfl

/-- A refill does not read the cursor (R121). -/
theorem refillGen_setCursor (g : Gen) (c : Fin 257) : refillGen cfg { g with cursor := c } = refillGen cfg g := rfl

/-- A word draw that refills first (R124). -/
theorem nextWord_refill (h : 252 < s.gen.cursor.val) :
    nextWord cfg s = (bufWord (refillGen cfg s.gen) 0,
      { s with dctl := touchDctl cfg s.dctl, gen := { refillGen cfg s.gen with cursor := ⟨4, by decide⟩ } }) := by
  have hlt := s.gen.cursor.isLt
  have e : alignCursor s = { s with gen := { s.gen with cursor := ⟨256, by omega⟩ } } := by
    have h4 : 4 * ((s.gen.cursor.val + 3) / 4) = 256 := by omega
    rw [alignCursor, h4, moveCursor_eq s (by omega)]
  have hr : refillIfExhausted cfg (alignCursor s) =
      { s with dctl := touchDctl cfg s.dctl, gen := refillGen cfg s.gen } := by
    rw [e, refillIfExhausted_of_eq cfg _ rfl, refill_eq, refillGen_setCursor]
  have hz (g : Gen) (hg : g.cursor = 0) : g.cursor.val / 4 = 0 ∧ g.cursor.val + 4 = 4 := by simp [hg]
  obtain ⟨h1, h2⟩ := hz (refillGen cfg s.gen) (refillGen_cursor cfg s.gen)
  rw [nextWord, hr]
  simp only [h1, h2]
  rw [moveCursor_eq _ (by decide)]

/-- The word of a refilled buffer that a draw takes first is word 0 of `MixWords` of the counter (R121, R124). -/
theorem bufWord_refillGen (g : Gen) : bufWord (refillGen config g) 0 = (mixWords config g.counter)[0] := by
  have h (i : Nat) (hi : i < 4) : bufByte (refillGen config g) i = byteLE (mixWords config g.counter)[0] i := by
    rw [bufByte_of_lt _ (by omega)]
    simp only [refillGen]
    rw [fillBuffer_getElem _ (by omega)]
    have h1 : i / 4 = 0 := by omega
    have h2 : i / 16 = 0 := by omega
    have h3 : i % 4 = i := by omega
    simp only [h1, h2, h3, Nat.zero_mod, BitVec.add_zero]
  simp only [bufWord, Nat.mul_zero, Nat.zero_add]
  rw [h 0 (by omega), h 1 (by omega), h 2 (by omega), h 3 (by omega), wordLE_byteLE]

/-- What a word draw leaves alone: all but the generator and the dispatch flag. -/
theorem nextWord_frame : ∃ g d, (nextWord cfg s).2 = { s with gen := g, dctl := d } := by
  by_cases h : s.gen.cursor.val ≤ 252
  · rw [nextWord_inBuffer cfg s h]; exact ⟨_, s.dctl, rfl⟩
  · rw [nextWord_refill cfg s (by omega)]; exact ⟨_, touchDctl cfg s.dctl, rfl⟩

/-- A word draw keeps the valid bit. -/
@[simp] theorem nextWord_valid : (nextWord cfg s).2.gen.valid = s.gen.valid := by
  by_cases h : s.gen.cursor.val ≤ 252
  · rw [nextWord_inBuffer cfg s h]
  · rw [nextWord_refill cfg s (by omega)]; rfl

/-- A word draw takes the next aligned word of the stream (R124, R129). -/
theorem AtStream.nextWord {s : State} {seed : Word64} {p : Nat} (h : AtStream s.gen seed p) :
    (nextWord config s).1 = wordLE (streamByte seed (alignUp p)) (streamByte seed (alignUp p + 1))
      (streamByte seed (alignUp p + 2)) (streamByte seed (alignUp p + 3)) ∧
    AtStream (nextWord config s).2.gen seed (alignUp p + 4) := by
  have hcur : alignUp p = p + (alignUp s.gen.cursor.val - s.gen.cursor.val) := by
    obtain ⟨-, q, -, hp, -⟩ := h
    have := s.gen.cursor.isLt
    unfold alignUp
    omega
  have hle : s.gen.cursor.val ≤ alignUp s.gen.cursor.val := by unfold alignUp; omega
  by_cases hc : s.gen.cursor.val ≤ 252
  · have hw : alignUp s.gen.cursor.val ≤ 252 := by unfold alignUp; omega
    have hmul : 4 * (alignUp s.gen.cursor.val / 4) = alignUp s.gen.cursor.val := by unfold alignUp; omega
    rw [nextWord_inBuffer config s hc]
    refine ⟨?_, ?_⟩
    · have hb (j : Nat) (hj : j < 4) :
          bufByte s.gen (alignUp s.gen.cursor.val + j) = streamByte seed (alignUp p + j) := by
        rw [bufByte_of_lt _ (by omega)]
        have := h.byte (j := alignUp s.gen.cursor.val - s.gen.cursor.val + j) (by omega)
        rw [hcur, Nat.add_assoc, ← this]
        congr 1
        omega
      simp only [bufWord, hmul]
      rw [hb 1 (by omega), hb 2 (by omega), hb 3 (by omega)]
      exact congrArg (wordLE · _ _ _) (hb 0 (by omega))
    · have := h.moveCursor (c := alignUp s.gen.cursor.val + 4) (by omega) (by omega)
      rw [moveCursor_eq s (by omega)] at this
      rwa [show alignUp p + 4 = p + (alignUp s.gen.cursor.val + 4 - s.gen.cursor.val) by omega]
  · have hlt := s.gen.cursor.isLt
    have h256 : alignUp s.gen.cursor.val = 256 := by unfold alignUp; omega
    have ha : AtStream (alignCursor s).gen seed (alignUp p) := by
      have := h.moveCursor (c := alignUp s.gen.cursor.val) hle (by omega)
      rwa [← hcur] at this
    have hr := ha.refillGen (by
      rw [alignCursor, moveCursor_eq s (by omega)]
      exact h256)
    have hg : Machine.refillGen config (alignCursor s).gen = Machine.refillGen config s.gen := rfl
    rw [hg] at hr
    rw [nextWord_refill config s (by omega)]
    refine ⟨?_, ?_⟩
    · have hb (j : Nat) (hj : j < 4) : bufByte (Machine.refillGen config s.gen) j = streamByte seed (alignUp p + j) := by
        rw [bufByte_of_lt _ (by omega)]
        have := hr.byte (j := j) (by simp [Machine.refillGen]; omega)
        rw [← this]
        congr 1
        simp [Machine.refillGen]
      simp only [bufWord, Nat.mul_zero, Nat.zero_add]
      rw [hb 1 (by omega), hb 2 (by omega), hb 3 (by omega)]
      exact congrArg (wordLE · _ _ _) (hb 0 (by omega))
    · have := AtStream.moveCursor (s := setGen (Machine.refillGen config s.gen) s) (c := 4) hr (by simp [Machine.refillGen]) (by omega)
      rw [moveCursor_eq _ (by omega)] at this
      exact this

/-- A word draw depends on the generator and the refills alone, but for the dispatch flag. -/
theorem nextWord_congr {cfg cfg' : Config} (hf : fillBuffer cfg = fillBuffer cfg') {s t : State} (h : s.gen = t.gen) :
    (nextWord cfg s).1 = (nextWord cfg' t).1 ∧ (nextWord cfg s).2.gen = (nextWord cfg' t).2.gen := by
  by_cases hc : s.gen.cursor.val ≤ 252
  · have hc' : t.gen.cursor.val ≤ 252 := h ▸ hc
    rw [nextWord_inBuffer cfg s hc, nextWord_inBuffer cfg' t hc']
    simp only [h, and_self]
  · have hc' : ¬ t.gen.cursor.val ≤ 252 := h ▸ hc
    rw [nextWord_refill cfg s (by omega), nextWord_refill cfg' t (by omega)]
    simp only [refillGen, hf, h, and_self]

/-- The dispatch flag after a word draw depends on the cursor and the flag alone. -/
theorem nextWord_dctl_congr {s t : State} (h : s.gen = t.gen) (hd : s.dctl = t.dctl) :
    (nextWord cfg s).2.dctl = (nextWord cfg t).2.dctl := by
  by_cases hc : s.gen.cursor.val ≤ 252
  · rw [nextWord_inBuffer cfg s hc, nextWord_inBuffer cfg t (h ▸ hc)]
    exact hd
  · rw [nextWord_refill cfg s (by omega), nextWord_refill cfg t (by rw [← h]; omega)]
    exact congrArg (touchDctl cfg) hd

/-- The state after a word draw, by its generator and its dispatch flag. -/
theorem nextWord_state : (nextWord cfg s).2 =
    { s with gen := (nextWord cfg s).2.gen, dctl := (nextWord cfg s).2.dctl } := by
  obtain ⟨g, d, h⟩ := nextWord_frame cfg s
  rw [h]

/-- The 53 bits of a double from its two words (R125). -/
theorem fraction53_eq (hi lo : Word32) : fraction53 hi lo = (hi.toNat * 2 ^ 32 + lo.toNat) / 2 ^ 11 := by
  have h : (concat32 hi lo).toNat = hi.toNat * 2 ^ 32 + lo.toNat := toNat_append_add hi lo
  have h2 := (concat32 hi lo).isLt
  rw [fraction53, BitVec.extractLsb'_toNat, Nat.shiftRight_eq_div_pow, h, Nat.mod_eq_of_lt]
  omega

theorem fraction53_lt (hi lo : Word32) : fraction53 hi lo < 2 ^ 53 := ((concat32 hi lo).extractLsb' 11 53).isLt

/-- The state after a double draw, by its generator and its dispatch flag. -/
theorem nextDouble_state : (nextDouble cfg s).2 =
    { s with gen := (nextDouble cfg s).2.gen, dctl := (nextDouble cfg s).2.dctl } := by
  obtain ⟨g, d, h⟩ := nextWord_frame cfg s
  obtain ⟨g', d', h'⟩ := nextWord_frame cfg (nextWord cfg s).2
  have e : (nextDouble cfg s).2 = (nextWord cfg (nextWord cfg s).2).2 := rfl
  rw [e, h', h]

@[simp] theorem nextDouble_valid : (nextDouble cfg s).2.gen.valid = s.gen.valid := by
  have e : (nextDouble cfg s).2 = (nextWord cfg (nextWord cfg s).2).2 := rfl
  rw [e, nextWord_valid, nextWord_valid]

/-- A double draw depends on the generator and the refills alone, but for the dispatch flag. -/
theorem nextDouble_congr {cfg cfg' : Config} (hf : fillBuffer cfg = fillBuffer cfg') {s t : State} (h : s.gen = t.gen) :
    (nextDouble cfg s).1 = (nextDouble cfg' t).1 ∧ (nextDouble cfg s).2.gen = (nextDouble cfg' t).2.gen := by
  obtain ⟨h1, h2⟩ := nextWord_congr hf h
  obtain ⟨h3, h4⟩ := nextWord_congr hf h2
  have e (c : Config) (x : State) : nextDouble c x =
    (f64OfFraction53 (fraction53 (nextWord c x).1 (nextWord c (nextWord c x).2).1), (nextWord c (nextWord c x).2).2) := rfl
  rw [e cfg s, e cfg' t, h1, h3]
  exact ⟨rfl, h4⟩

/-- The dispatch flag after a double draw depends on the cursor and the flag alone. -/
theorem nextDouble_dctl_congr {s t : State} (h : s.gen = t.gen) (hd : s.dctl = t.dctl) :
    (nextDouble cfg s).2.dctl = (nextDouble cfg t).2.dctl :=
  nextWord_dctl_congr cfg (nextWord_congr rfl h).2 (nextWord_dctl_congr cfg h hd)

/-- What the platform decides changes no refill (R10). -/
theorem fillBuffer_configOn (present : Bool) (refuses : Word64 → Bool) :
    fillBuffer (configOn present refuses) = fillBuffer config := by
  funext c
  simp only [fillBuffer, mixWords, config, configOn]

/-- The end of a draw: the result, the outcome OK, and the generator and dispatch flag it leaves. -/
theorem setOk_draw (v : Word64) (g : Gen) (d : Dctl) :
    setOk (setR0 v { s with gen := g, dctl := d }) = { s with err := none, r0 := v, gen := g, dctl := d } := rfl

/-- NEXT_U32 with a valid generator. -/
theorem nextU32With_valid (h : s.gen.valid = true) : nextU32With cfg s =
    .next { s with err := none, r0 := (nextWord cfg s).1.setWidth 64,
                   gen := (nextWord cfg s).2.gen, dctl := (nextWord cfg s).2.dctl } := by
  rw [nextU32With, if_pos h]
  exact congrArg (fun x => Host.Outcome.next (setOk (resultU32 (nextWord cfg s).1 x))) (nextWord_state cfg s) |>.trans
    (congrArg _ (setOk_draw s _ _ _))

/-- NEXT_F64 with a valid generator. -/
theorem nextF64With_valid (h : s.gen.valid = true) : nextF64With cfg s =
    .next { s with err := none, r0 := bitsOf (nextDouble cfg s).1,
                   gen := (nextDouble cfg s).2.gen, dctl := (nextDouble cfg s).2.dctl } := by
  rw [nextF64With, if_pos h]
  exact congrArg (fun x => Host.Outcome.next (setOk (resultF64 (nextDouble cfg s).1 x))) (nextDouble_state cfg s) |>.trans
    (congrArg _ (setOk_draw s _ _ _))

/-- GENERATE with a valid generator, where the platform takes the bytes. -/
theorem generateWith_valid (h : s.gen.valid = true) {m : Memory}
    (hm : s.written.writeBytes cfg s.a0 (drawBytes cfg s.a1.toNat s).1 = .ok m) : generateWith cfg s =
    .next { s with err := none, written := m, gen := (drawBytes cfg s.a1.toNat s).2.gen,
                   dctl := (drawBytes cfg s.a1.toNat s).2.dctl } := by
  rw [generateWith, if_pos h, generateBytes_eq, intA0, intA1, hm]
  obtain ⟨g, d, hf⟩ := drawBytes_frame cfg s s.a1.toNat
  generalize drawBytes cfg s.a1.toNat s = r at hf
  rw [hf]
  rfl

/-- GENERATE with a valid generator, where the platform refuses a byte. -/
theorem generateWith_refused (h : s.gen.valid = true) {a : Word64}
    (hm : s.written.writeBytes cfg s.a0 (drawBytes cfg s.a1.toNat s).1 = .error a) :
    generateWith cfg s = .fault (.hostMemRefused a) := by
  rw [generateWith, if_pos h, generateBytes_eq, intA0, intA1, hm]

end Sys2Proof.Machine
end

