-- ==== Sys2Proof/Laws/Float.lean ====
section
/-! SUPPORT. Binary64 arithmetic: packing is exact on representable magnitudes, rounding gives the nearest one, ties to even
(00_scope.md R16, 42_zipf.md R140). -/

namespace Sys2Proof.Machine

set_option exponentiation.threshold 3000

/-- The magnitude is that of a finite binary64. -/
def Rep (k : Nat) : Prop := ∃ e f, scaled e f = k

/-- A magnitude as a significand of at most 53 bits and a shift, the significand full unless the shift is 0. -/
def Normal (q sh : Nat) : Prop := q < 2 ^ 53 ∧ (sh = 0 ∨ 2 ^ 52 ≤ q)

/-- The significand and the shift of a finite datum. -/
theorem scaled_normal (e : Fin 2047) (f : BitVec 52) : ∃ q sh, Normal q sh ∧ scaled e f = q * 2 ^ sh ∧ sh ≤ 2045 ∧
    f.toNat % 2 = q % 2 ∧ packScaled false (q * 2 ^ sh) = .fin false e f ∧ packScaled true (q * 2 ^ sh) = .fin true e f := by
  have hf := f.isLt
  have he := e.isLt
  by_cases h : e.val = 0
  · refine ⟨f.toNat, 0, ⟨by omega, .inl rfl⟩, by simp [scaled, h], by omega, rfl, ?_, ?_⟩ <;>
    · simp only [Nat.pow_zero, Nat.mul_one, packScaled, if_pos hf, BitVec.ofNat_toNat, BitVec.setWidth_eq]
      congr
      exact Fin.ext h.symm
  · have hlog : Nat.log2 ((2 ^ 52 + f.toNat) * 2 ^ (e.val - 1)) = 52 + (e.val - 1) := by
      rw [Nat.log2_eq_iff (by positivity)]
      constructor
      · rw [Nat.pow_add]; exact Nat.mul_le_mul_right _ (by omega)
      · rw [show 52 + (e.val - 1) + 1 = 53 + (e.val - 1) by omega, Nat.pow_add]
        exact Nat.mul_lt_mul_of_pos_right (by omega) (by positivity)
    have hge : ¬ (2 ^ 52 + f.toNat) * 2 ^ (e.val - 1) < 2 ^ 52 := by
      have := Nat.le_mul_of_pos_right (2 ^ 52 + f.toNat) (Nat.two_pow_pos (e.val - 1))
      omega
    have hsub : 52 + (e.val - 1) - 52 = e.val - 1 := by omega
    have hdiv : (2 ^ 52 + f.toNat) * 2 ^ (e.val - 1) / 2 ^ (e.val - 1) = 2 ^ 52 + f.toNat :=
      Nat.mul_div_cancel _ (by positivity)
    have hof : BitVec.ofNat 52 (2 ^ 52 + f.toNat) = f := by
      apply BitVec.eq_of_toNat_eq
      rw [BitVec.toNat_ofNat]
      omega
    refine ⟨2 ^ 52 + f.toNat, e.val - 1, ⟨by omega, .inr (by omega)⟩, by simp [scaled, h], by omega, by omega, ?_, ?_⟩ <;>
    · simp only [packScaled, if_neg hge, hlog, hsub, hdiv, hof]
      rw [dif_pos (by omega)]
      congr
      omega

/-- Packing the magnitude of a finite datum gives the datum back. -/
theorem packScaled_scaled (neg : Bool) (e : Fin 2047) (f : BitVec 52) : packScaled neg (scaled e f) = .fin neg e f := by
  obtain ⟨q, sh, -, h1, -, -, h2, h3⟩ := scaled_normal e f
  cases neg
  · rw [h1, h2]
  · rw [h1, h3]

/-- A finite datum is determined by its magnitude. -/
theorem scaled_inj {e e' : Fin 2047} {f f' : BitVec 52} (h : scaled e f = scaled e' f') : e = e' ∧ f = f' := by
  have h1 := packScaled_scaled false e f
  rw [h, packScaled_scaled] at h1
  injection h1 with _ h2 h3
  exact ⟨h2.symm, h3.symm⟩

/-- The greatest finite magnitude. -/
theorem scaled_lt (e : Fin 2047) (f : BitVec 52) : scaled e f ≤ (2 ^ 53 - 1) * 2 ^ 2045 := by
  obtain ⟨q, sh, ⟨hq, -⟩, h, hs, -⟩ := scaled_normal e f
  rw [h]
  exact Nat.mul_le_mul (by omega) (Nat.pow_le_pow_right (by omega) hs)

/-- Packing a normal magnitude below the overflow bound is exact. -/
theorem packScaled_normal {q sh : Nat} (h : Normal q sh) (hs : q * 2 ^ sh < 2 ^ 2098) :
    ∃ e f, (∀ neg, packScaled neg (q * 2 ^ sh) = .fin neg e f) ∧ scaled e f = q * 2 ^ sh ∧ f.toNat % 2 = q % 2 := by
  obtain ⟨hq, hn⟩ := h
  by_cases h52 : q * 2 ^ sh < 2 ^ 52
  · have h0 : sh = 0 := by
      by_contra h0
      have h1 : 2 ^ 52 ≤ q := by omega
      have := Nat.mul_le_mul h1 (Nat.two_pow_pos sh)
      omega
    subst h0
    simp only [Nat.pow_zero, Nat.mul_one] at h52 ⊢
    refine ⟨0, BitVec.ofNat 52 q, fun neg => by simp only [packScaled, if_pos h52], ?_, ?_⟩
    · simp only [scaled, Fin.val_zero, if_true, BitVec.toNat_ofNat, Nat.mod_eq_of_lt h52]
    · rw [BitVec.toNat_ofNat, Nat.mod_eq_of_lt h52]
  · have h1 : 2 ^ 52 ≤ q := by
      rcases hn with rfl | h1
      · simpa using h52
      · exact h1
    have hlog : Nat.log2 (q * 2 ^ sh) = 52 + sh := by
      have := Nat.two_pow_pos sh
      rw [Nat.log2_eq_iff (by positivity)]
      constructor
      · rw [Nat.pow_add]; exact Nat.mul_le_mul_right _ h1
      · rw [show 52 + sh + 1 = 53 + sh by omega, Nat.pow_add]
        exact Nat.mul_lt_mul_of_pos_right hq this
    have hsh : sh + 1 < 2047 := by
      have h2 : 2 ^ (52 + sh) < 2 ^ 2098 := by
        rw [Nat.pow_add]
        exact lt_of_le_of_lt (Nat.mul_le_mul_right _ h1) hs
      have h3 : 52 + sh < 2098 := (Nat.pow_lt_pow_iff_right Nat.one_lt_two).mp h2
      clear h2 hs
      omega
    have hsub : 52 + sh - 52 = sh := by omega
    refine ⟨⟨sh + 1, hsh⟩, BitVec.ofNat 52 q, fun neg => ?_, ?_, ?_⟩
    · simp only [packScaled, if_neg h52, hlog, hsub, Nat.mul_div_cancel _ (Nat.two_pow_pos sh)]
      rw [dif_pos hsh]
    · simp only [scaled, Nat.add_sub_cancel, BitVec.toNat_ofNat]
      rw [if_neg (by omega)]
      congr 1
      omega
    · rw [BitVec.toNat_ofNat]
      omega

/-- Packing from the overflow bound on gives infinity. -/
theorem packScaled_overflow (neg : Bool) {k : Nat} (h : 2 ^ 2098 ≤ k) : packScaled neg k = .inf neg := by
  have h1 : 2098 ≤ Nat.log2 k := (Nat.le_log2 (Nat.ne_of_gt (lt_of_lt_of_le (Nat.two_pow_pos 2098) h))).mpr h
  have h2 : ¬ k < 2 ^ 52 := not_lt.mpr (le_trans (Nat.pow_le_pow_right (by omega) (by omega)) h)
  simp only [packScaled, if_neg h2]
  rw [dif_neg (by omega)]

/-- A representable magnitude does not lie strictly between two neighbours. -/
theorem Rep.not_between {k q sh : Nat} (hk : Rep k) (h : Normal q sh) : k ≤ q * 2 ^ sh ∨ (q + 1) * 2 ^ sh ≤ k := by
  by_contra hc
  obtain ⟨h1, h2⟩ := not_or.mp hc
  have h1 := not_le.mp h1
  have h2 := not_le.mp h2
  obtain ⟨e, f, rfl⟩ := hk
  obtain ⟨q', sh', ⟨hq', -⟩, hs, -⟩ := scaled_normal e f
  rw [hs] at h1 h2
  rcases h.2 with rfl | hq
  · simp only [Nat.pow_zero, Nat.mul_one] at h1 h2
    omega
  · by_cases hle : sh ≤ sh'
    · obtain ⟨j, rfl⟩ := Nat.exists_eq_add_of_le hle
      rw [Nat.pow_add, Nat.mul_comm (2 ^ sh), ← Nat.mul_assoc] at h1 h2
      have h1' := Nat.lt_of_mul_lt_mul_right h1
      have h2' := Nat.lt_of_mul_lt_mul_right h2
      omega
    · obtain ⟨j, rfl⟩ := Nat.exists_eq_add_of_lt (not_le.mp hle)
      have h3 : q' * 2 ^ sh' < 2 ^ 53 * 2 ^ sh' := Nat.mul_lt_mul_of_pos_right hq' (Nat.two_pow_pos sh')
      have h4 : 2 ^ 53 * 2 ^ sh' ≤ q * 2 ^ (sh' + j + 1) := by
        rw [show sh' + j + 1 = (j + 1) + sh' by omega, Nat.pow_add, ← Nat.mul_assoc]
        refine Nat.mul_le_mul_right _ ?_
        rw [Nat.pow_succ 2 j]
        have := Nat.two_pow_pos j
        nlinarith
      omega

/-- What rounding does, with its shift named: the two neighbours of `num / den`, and which of them it takes. -/
theorem roundNearest_shift (num den : Nat) (hd : 0 < den) : ∃ q sh, sh = Nat.log2 (num / den) - 52 ∧ Normal q sh ∧
    q * 2 ^ sh * den ≤ num ∧ num < (q + 1) * 2 ^ sh * den ∧
    ((roundNearest num den = q * 2 ^ sh ∧
        (2 * num < (2 * q + 1) * 2 ^ sh * den ∨ (2 * num = (2 * q + 1) * 2 ^ sh * den ∧ q % 2 = 0))) ∨
     (roundNearest num den = (q + 1) * 2 ^ sh ∧
        ((2 * q + 1) * 2 ^ sh * den < 2 * num ∨ (2 * num = (2 * q + 1) * 2 ^ sh * den ∧ q % 2 = 1)))) := by
  obtain ⟨sh, hsh⟩ : ∃ sh, Nat.log2 (num / den) - 52 = sh := ⟨_, rfl⟩
  have hD : 0 < den * 2 ^ sh := Nat.mul_pos hd (Nat.two_pow_pos sh)
  generalize hDe : den * 2 ^ sh = d at hD
  generalize hq : num / d = q
  generalize hr : num % d = r
  have hnum : num = q * d + r := by rw [← hq, ← hr, Nat.mul_comm]; exact (Nat.div_add_mod num d).symm
  have hrd : r < d := hr ▸ Nat.mod_lt _ hD
  have hqdiv : q = num / den / 2 ^ sh := by rw [← hq, ← hDe, Nat.div_div_eq_div_mul]
  have hround : roundNearest num den = (if d < 2 * r ∨ (2 * r = d ∧ q % 2 = 1) then q + 1 else q) * 2 ^ sh := by
    simp only [roundNearest, hsh, hDe, hq, hr]
  have hlt : q < 2 ^ 53 := by
    rw [hqdiv]
    by_cases h0 : num / den = 0
    · rw [h0]; simp
    · refine Nat.div_lt_of_lt_mul ?_
      rw [← Nat.pow_add]
      exact lt_of_lt_of_le (Nat.lt_log2_self) (Nat.pow_le_pow_right (by omega) (by omega))
  have hnorm : Normal q sh := by
    refine ⟨hlt, ?_⟩
    by_cases h0 : sh = 0
    · exact .inl h0
    · right
      rw [hqdiv, Nat.le_div_iff_mul_le (Nat.two_pow_pos sh), ← Nat.pow_add]
      have hne : num / den ≠ 0 := by
        intro h
        rw [h] at hsh
        simp at hsh
        omega
      rw [show 52 + sh = Nat.log2 (num / den) by omega]
      exact Nat.log2_self_le hne
  have e1 (m : Nat) : m * 2 ^ sh * den = m * d := by rw [Nat.mul_assoc, Nat.mul_comm (2 ^ sh), hDe]
  refine ⟨q, sh, hsh.symm, hnorm, ?_, ?_, ?_⟩
  · rw [e1]; omega
  · rw [e1, Nat.add_mul]; omega
  · rw [e1, hround]
    have e2 : (2 * q + 1) * d = 2 * (q * d) + d := by ring
    rw [e2]
    split
    · next h =>
      refine .inr ⟨rfl, ?_⟩
      rcases h with h | ⟨h, h'⟩
      · left; omega
      · right; exact ⟨by omega, h'⟩
    · next h =>
      refine .inl ⟨rfl, ?_⟩
      obtain ⟨ha, hb⟩ := not_or.mp h
      by_cases hc : 2 * r = d
      · right
        refine ⟨by omega, ?_⟩
        have : ¬ q % 2 = 1 := fun hh => hb ⟨hc, hh⟩
        omega
      · left; omega

/-- What rounding does: the two neighbours of `num / den`, and which of them it takes. -/
theorem roundNearest_spec (num den : Nat) (hd : 0 < den) : ∃ q sh, Normal q sh ∧
    q * 2 ^ sh * den ≤ num ∧ num < (q + 1) * 2 ^ sh * den ∧
    ((roundNearest num den = q * 2 ^ sh ∧
        (2 * num < (2 * q + 1) * 2 ^ sh * den ∨ (2 * num = (2 * q + 1) * 2 ^ sh * den ∧ q % 2 = 0))) ∨
     (roundNearest num den = (q + 1) * 2 ^ sh ∧
        ((2 * q + 1) * 2 ^ sh * den < 2 * num ∨ (2 * num = (2 * q + 1) * 2 ^ sh * den ∧ q % 2 = 1)))) := by
  obtain ⟨q, sh, -, h⟩ := roundNearest_shift num den hd
  exact ⟨q, sh, h⟩

/-- A representable magnitude not above the exact value is not above the rounded one. -/
theorem le_roundNearest {k num den : Nat} (hd : 0 < den) (hk : Rep k) (h : k * den ≤ num) : k ≤ roundNearest num den := by
  obtain ⟨q, sh, hn, h1, h2, h3⟩ := roundNearest_spec num den hd
  have hq : k ≤ q * 2 ^ sh := by
    rcases hk.not_between hn with h' | h'
    · exact h'
    · exact absurd (Nat.mul_le_mul_right den h') (by omega)
  have hle : q * 2 ^ sh ≤ (q + 1) * 2 ^ sh := Nat.mul_le_mul_right _ (by omega)
  rcases h3 with ⟨h3, -⟩ | ⟨h3, -⟩ <;> rw [h3] <;> omega

/-- A representable magnitude not below the exact value is not below the rounded one. -/
theorem roundNearest_le {k num den : Nat} (hd : 0 < den) (hk : Rep k) (h : num ≤ k * den) : roundNearest num den ≤ k := by
  obtain ⟨q, sh, hn, h1, h2, h3⟩ := roundNearest_spec num den hd
  rcases hk.not_between hn with h' | h'
  · have hkq : k = q * 2 ^ sh := by
      refine Nat.le_antisymm h' ?_
      exact Nat.le_of_mul_le_mul_right (le_trans h1 h) hd
    have hx : 2 * num = 2 * (q * 2 ^ sh * den) := by rw [hkq] at h; omega
    have hpos : 0 < 2 ^ sh * den := Nat.mul_pos (Nat.two_pow_pos sh) hd
    have e : (2 * q + 1) * 2 ^ sh * den = 2 * (q * 2 ^ sh * den) + 2 ^ sh * den := by ring
    rcases h3 with ⟨h3, -⟩ | ⟨-, h3 | h3⟩
    · omega
    · omega
    · omega
  · have hle : q * 2 ^ sh ≤ (q + 1) * 2 ^ sh := Nat.mul_le_mul_right _ (by omega)
    rcases h3 with ⟨h3, -⟩ | ⟨h3, -⟩ <;> omega

/-- Rounding a representable value is exact. -/
theorem roundNearest_exact {k den : Nat} (hd : 0 < den) (hk : Rep k) : roundNearest (k * den) den = k :=
  Nat.le_antisymm (roundNearest_le hd hk (le_refl _)) (le_roundNearest hd hk (le_refl _))

/-- A normal magnitude is representable below the overflow bound. -/
theorem Normal.rep {q sh : Nat} (h : Normal q sh) (hs : q * 2 ^ sh < 2 ^ 2098) : Rep (q * 2 ^ sh) := by
  obtain ⟨e, f, -, h2, -⟩ := packScaled_normal h hs
  exact ⟨e, f, h2⟩

/-- The upper neighbour of a normal magnitude is one too. -/
theorem Normal.succ {q sh : Nat} (h : Normal q sh) : ∃ q' sh', Normal q' sh' ∧ (q + 1) * 2 ^ sh = q' * 2 ^ sh' ∧
    (q + 1) % 2 = q' % 2 := by
  by_cases hq : q + 1 < 2 ^ 53
  · exact ⟨q + 1, sh, ⟨hq, h.2.imp id (by omega)⟩, rfl, rfl⟩
  · have : q + 1 = 2 ^ 53 := by have := h.1; omega
    refine ⟨2 ^ 52, sh + 1, ⟨by norm_num, .inr (le_refl _)⟩, ?_, ?_⟩
    · rw [this, Nat.pow_succ 2 sh]; ring
    · rw [this]; norm_num

/-- The rounded magnitude is normal. -/
theorem roundNearest_normal (num den : Nat) (hd : 0 < den) : ∃ q sh, Normal q sh ∧ roundNearest num den = q * 2 ^ sh := by
  obtain ⟨q, sh, hn, -, -, h | h⟩ := roundNearest_spec num den hd
  · exact ⟨q, sh, hn, h.1⟩
  · obtain ⟨q', sh', hn', h', -⟩ := hn.succ
    exact ⟨q', sh', hn', h.1.trans h'⟩

/-- No representable magnitude is nearer than the rounded one. -/
theorem roundNearest_gap {k num den : Nat} (hd : 0 < den) (hk : Rep k) :
    gap (roundNearest num den * den) num ≤ gap (k * den) num := by
  obtain ⟨q, sh, hn, h1, h2, h3⟩ := roundNearest_spec num den hd
  have hmid : (2 * q + 1) * 2 ^ sh * den = q * 2 ^ sh * den + (q + 1) * 2 ^ sh * den := by ring
  have hk : k * den ≤ q * 2 ^ sh * den ∨ (q + 1) * 2 ^ sh * den ≤ k * den :=
    (hk.not_between hn).imp (Nat.mul_le_mul_right _) (Nat.mul_le_mul_right _)
  rw [hmid] at h3
  unfold gap
  rcases h3 with ⟨h3, h4⟩ | ⟨h3, h4⟩ <;>
  · rw [h3]
    generalize q * 2 ^ sh * den = A at *
    generalize (q + 1) * 2 ^ sh * den = B at *
    omega

/-- Where rounding reaches a power of two from below: at half a quantum under it. -/
theorem pow_le_roundNearest (num den E : Nat) (hd : 0 < den) :
    2 ^ 53 * 2 ^ E ≤ roundNearest num den ↔ (2 ^ 54 - 1) * (2 ^ E * den) ≤ 2 * num := by
  obtain ⟨q, sh, -, hn, h1, h2, h3⟩ := roundNearest_shift num den hd
  have hq := hn.1
  have hP := Nat.two_pow_pos E
  rcases Nat.lt_trichotomy sh E with hlt | rfl | hgt
  · have hle : (q + 1) * 2 ^ sh ≤ 2 ^ 52 * 2 ^ E := by
      obtain ⟨j, rfl⟩ := Nat.exists_eq_add_of_lt hlt
      have hE : 2 ^ 52 * 2 ^ (sh + j + 1) = 2 ^ 53 * (2 ^ sh * 2 ^ j) := by rw [Nat.pow_succ, Nat.pow_add]; ring
      rw [hE]
      exact le_trans (Nat.mul_le_mul_right _ hq)
        (Nat.mul_le_mul_left _ (Nat.le_mul_of_pos_right _ (Nat.two_pow_pos j)))
    have hnum : num < 2 ^ 52 * (2 ^ E * den) := by
      rw [← Nat.mul_assoc]
      exact lt_of_lt_of_le h2 (Nat.mul_le_mul_right _ hle)
    have hr : roundNearest num den ≤ (q + 1) * 2 ^ sh := by
      have h4 : q * 2 ^ sh ≤ (q + 1) * 2 ^ sh := Nat.mul_le_mul_right _ (by omega)
      rcases h3 with ⟨h3, -⟩ | ⟨h3, -⟩
      · rw [h3]; exact h4
      · rw [h3]
    have hrP := le_trans hr hle
    clear h1 h2 h3 hr hle
    generalize roundNearest num den = k at *
    generalize 2 ^ E * den = d at *
    generalize 2 ^ E = P at *
    constructor <;> intro h <;> omega
  · rw [Nat.mul_assoc] at h1 h2
    rw [Nat.mul_assoc (2 * q + 1)] at h3
    have hdp : 0 < 2 ^ sh * den := Nat.mul_pos hP hd
    generalize 2 ^ sh * den = d at *
    generalize roundNearest num den = k at *
    generalize 2 ^ sh = p at *
    rcases Nat.lt_or_ge (q + 1) (2 ^ 53) with hq1 | hq1
    · have a1 : (q + 1) * p < 2 ^ 53 * p := Nat.mul_lt_mul_of_pos_right hq1 hP
      have a2 : (q + 1) * d ≤ (2 ^ 53 - 1) * d := Nat.mul_le_mul_right _ (by omega)
      have a3 : q * p ≤ (q + 1) * p := Nat.mul_le_mul_right _ (by omega)
      have a4 : k ≤ (q + 1) * p := by
        rcases h3 with ⟨h3, -⟩ | ⟨h3, -⟩ <;> rw [h3]
        exact a3
      clear h1 h3 a3
      constructor
      · intro h
        omega
      · intro h
        omega
    · have e1 : 2 * q + 1 = 2 ^ 54 - 1 := by omega
      have e2 : q + 1 = 2 ^ 53 := by omega
      have e3 : q % 2 = 1 := by omega
      have a1 : q * p < 2 ^ 53 * p := Nat.mul_lt_mul_of_pos_right hq hP
      rw [e1, e2, e3] at h3
      generalize (2 ^ 54 - 1) * d = x at *
      generalize 2 ^ 53 * p = y at *
      clear h1 h2
      constructor
      · intro h
        rcases h3 with ⟨h3, -⟩ | ⟨-, h3 | ⟨h3, -⟩⟩ <;> omega
      · intro h
        rcases h3 with ⟨-, h3 | ⟨-, h3⟩⟩ | ⟨h3, -⟩ <;> omega
  · have hq : 2 ^ 52 ≤ q := by rcases hn.2 with h | h <;> omega
    have h8 : 2 ^ 53 * 2 ^ E ≤ q * 2 ^ sh := by
      obtain ⟨j, rfl⟩ := Nat.exists_eq_add_of_lt hgt
      have hE : 2 ^ 52 * 2 ^ (E + j + 1) = 2 ^ 53 * (2 ^ E * 2 ^ j) := by rw [Nat.pow_succ, Nat.pow_add]; ring
      refine le_trans ?_ (Nat.mul_le_mul_right _ hq)
      rw [hE]
      exact Nat.mul_le_mul_left _ (Nat.le_mul_of_pos_right _ (Nat.two_pow_pos j))
    have h9 : 2 ^ 53 * (2 ^ E * den) ≤ num := by
      rw [← Nat.mul_assoc]
      exact le_trans (Nat.mul_le_mul_right _ h8) h1
    have h10 : q * 2 ^ sh ≤ roundNearest num den := by
      have h4 : q * 2 ^ sh ≤ (q + 1) * 2 ^ sh := Nat.mul_le_mul_right _ (by omega)
      rcases h3 with ⟨h3, -⟩ | ⟨h3, -⟩
      · rw [h3]
      · rw [h3]; exact h4
    refine iff_of_true (le_trans h8 h10) ?_
    clear h1 h2 h3 h8 h10
    generalize 2 ^ E * den = d at *
    omega

/-- Where rounding overflows. -/
theorem roundNearest_overflow (num den : Nat) (hd : 0 < den) :
    2 ^ 2098 ≤ roundNearest num den ↔ overflowUnits * den ≤ num := by
  have h := pow_le_roundNearest num den 2045 hd
  have e : (2 : Nat) ^ 2098 = 2 ^ 53 * 2 ^ 2045 := Nat.pow_add 2 53 2045
  have e1 : (2 : Nat) ^ 2045 = 2 ^ 2044 * 2 := Nat.pow_succ 2 2044
  have e2 : (2 ^ 54 - 1) * (2 ^ 2045 * den) = 2 * (overflowUnits * den) := by
    rw [e1, overflowUnits]
    generalize (2 : Nat) ^ 2044 = P
    ring
  rw [e, h, e2]
  generalize overflowUnits * den = x
  omega

/-- The rounded datum, where rounding does not overflow: its magnitude is the rounded one. -/
theorem roundScaled_finite (neg : Bool) (num den : Nat) (hd : 0 < den) (h : num < overflowUnits * den) :
    ∃ e f, roundScaled neg num den = .fin neg e f ∧ scaled e f = roundNearest num den := by
  obtain ⟨q, sh, hn, hr⟩ := roundNearest_normal num den hd
  have hlt : roundNearest num den < 2 ^ 2098 := not_le.mp (fun hc => not_le.mpr h ((roundNearest_overflow num den hd).mp hc))
  obtain ⟨e, f, h1, h2, -⟩ := packScaled_normal hn (hr ▸ hlt)
  exact ⟨e, f, by rw [roundScaled, hr, h1], by rw [hr, h2]⟩

/-- The rounded datum, where rounding overflows. -/
theorem roundScaled_overflow (neg : Bool) (num den : Nat) (hd : 0 < den) (h : overflowUnits * den ≤ num) :
    roundScaled neg num den = .inf neg :=
  packScaled_overflow neg ((roundNearest_overflow num den hd).mpr h)

/-- The low bit of a fraction field is its parity. -/
theorem getLsbD_zero_eq_false {w : Nat} (f : BitVec w) (h : f.toNat % 2 = 0) : f.getLsbD 0 = false := by
  simp [BitVec.getLsbD, Nat.testBit_zero, h]

/-- Rounding gives the nearest datum, ties to even, with the sign asked for. -/
theorem roundScaled_nearest (neg : Bool) (num den : Nat) (hd : 0 < den) :
    NearestTo num den (roundScaled neg num den) ∧ signBit (roundScaled neg num den) = some neg := by
  by_cases hov : overflowUnits * den ≤ num
  · rw [roundScaled_overflow neg num den hd hov]
    exact ⟨hov, rfl⟩
  · have hlt := not_le.mp hov
    obtain ⟨e, f, hr, hs⟩ := roundScaled_finite neg num den hd hlt
    rw [hr]
    refine ⟨⟨hlt, fun e' f' => ?_⟩, rfl⟩
    obtain ⟨q, sh, hn, h1, h2, h3⟩ := roundNearest_spec num den hd
    have hbt := Rep.not_between ⟨e', f', rfl⟩ hn
    have hk : scaled e' f' * den ≤ q * 2 ^ sh * den ∨ (q + 1) * 2 ^ sh * den ≤ scaled e' f' * den :=
      hbt.imp (Nat.mul_le_mul_right _) (Nat.mul_le_mul_right _)
    have hmid : (2 * q + 1) * 2 ^ sh * den = q * 2 ^ sh * den + (q + 1) * 2 ^ sh * den := by ring
    have heq {k : Nat} (h : scaled e' f' * den = k * den) : scaled e' f' = k := Nat.eq_of_mul_eq_mul_right hd h
    have hpar {q' sh' : Nat} (hn' : Normal q' sh') (h : roundNearest num den = q' * 2 ^ sh') (h0 : q' % 2 = 0) :
        f.getLsbD 0 = false := by
      apply getLsbD_zero_eq_false
      have hx : q' * 2 ^ sh' < 2 ^ 2098 := by
        rw [← h]
        exact not_le.mp (fun hc => hov ((roundNearest_overflow num den hd).mp hc))
      obtain ⟨e2, f2, -, hs2, hp2⟩ := packScaled_normal hn' hx
      obtain ⟨-, rfl⟩ := scaled_inj (hs.trans (h.trans hs2.symm))
      omega
    rw [hs]
    rw [hmid] at h3
    rcases h3 with ⟨h3, h4⟩ | ⟨h3, h4⟩
    · have hp : q % 2 = 0 → f.getLsbD 0 = false := hpar hn h3
      rw [h3] at *
      generalize hA : q * 2 ^ sh * den = A at *
      generalize (q + 1) * 2 ^ sh * den = B at *
      unfold gap
      rcases hk with hk | hk
      · by_cases he : scaled e' f' * den = A
        · right; refine ⟨by omega, .inl (heq (he.trans hA.symm)).symm⟩
        · left; omega
      · rcases h4 with h4 | ⟨h4, h5⟩
        · left; omega
        · by_cases he : scaled e' f' * den = B
          · right; exact ⟨by omega, .inr (hp h5)⟩
          · left; omega
    · obtain ⟨q', sh', hn', hq', hpq⟩ := hn.succ
      have hp : q % 2 = 1 → f.getLsbD 0 = false := fun h => hpar hn' (h3.trans hq') (by omega)
      rw [h3] at *
      generalize q * 2 ^ sh * den = A at *
      generalize hB : (q + 1) * 2 ^ sh * den = B at *
      unfold gap
      rcases hk with hk | hk
      · rcases h4 with h4 | ⟨h4, h5⟩
        · left; omega
        · by_cases he : scaled e' f' * den = A
          · right; exact ⟨by omega, .inr (hp h5)⟩
          · left; omega
      · by_cases he : scaled e' f' * den = B
        · right; refine ⟨by omega, .inl (heq (he.trans hB.symm)).symm⟩
        · left; omega

/-- Rounding a value that is a representable magnitude is exact. -/
theorem roundScaled_exact (neg : Bool) {k num den : Nat} (hd : 0 < den) (hk : Rep k) (h : num = k * den) :
    ∃ e f, roundScaled neg num den = .fin neg e f ∧ scaled e f = k := by
  obtain ⟨e, f, rfl⟩ := hk
  refine ⟨e, f, ?_, rfl⟩
  rw [roundScaled, h, roundNearest_exact hd ⟨e, f, rfl⟩, packScaled_scaled]

/-- A shifted integer of at most 53 bits is normal. -/
theorem Normal.of_shifted (E : Nat) : ∀ {m : Nat}, m < 2 ^ 53 → ∃ q sh, Normal q sh ∧ m * 2 ^ E = q * 2 ^ sh := by
  induction E with
  | zero => intro m hm; exact ⟨m, 0, ⟨hm, .inl rfl⟩, rfl⟩
  | succ E ih =>
    intro m hm
    by_cases h : m < 2 ^ 52
    · obtain ⟨q, sh, hn, he⟩ := ih (m := 2 * m) (by omega)
      refine ⟨q, sh, hn, ?_⟩
      rw [← he, Nat.pow_succ]
      ring
    · exact ⟨m, E + 1, ⟨hm, .inr (by omega)⟩, rfl⟩

/-- A shifted integer of at most 53 bits is representable. -/
theorem Rep.of_shifted {m E : Nat} (hm : m < 2 ^ 53) (hE : E ≤ 2045) : Rep (m * 2 ^ E) := by
  obtain ⟨q, sh, hn, he⟩ := Normal.of_shifted E hm
  rw [he]
  refine hn.rep ?_
  have e : (2 : Nat) ^ 2098 = 2 ^ 53 * 2 ^ 2045 := Nat.pow_add 2 53 2045
  rw [← he, e]
  exact lt_of_lt_of_le (Nat.mul_lt_mul_of_pos_right hm (Nat.two_pow_pos _))
    (Nat.mul_le_mul_left _ (Nat.pow_le_pow_right (by omega) hE))

/-- The magnitude `m * 2^-53` of a draw is exact (R125). -/
theorem f64OfFraction53_exact {m : Nat} (hm : m < 2 ^ 53) :
    ∃ e f, f64OfFraction53 m = .fin false e f ∧ scaled e f = m * 2 ^ (1074 - 53) :=
  roundScaled_exact false Nat.one_pos (Rep.of_shifted hm (by omega)) (Nat.mul_one _).symm

/-- An integer up to `2^53` is exact. -/
theorem f64OfU64_exact {k : Nat} (hk : k ≤ 2 ^ 53) : ∃ e f, f64OfU64 k = .fin false e f ∧ scaled e f = k * 2 ^ 1074 := by
  refine roundScaled_exact false Nat.one_pos ?_ (Nat.mul_one _).symm
  by_cases h : k = 2 ^ 53
  · have e : k * 2 ^ 1074 = 2 ^ 52 * 2 ^ 1075 := by rw [h, Nat.pow_succ 2 1074]; ring
    rw [e]
    exact Rep.of_shifted (by norm_num) (by omega)
  · exact Rep.of_shifted (by omega) (by omega)

/-- The fields of a pattern built from its fields. -/
theorem fields_of_pattern (neg : Bool) (e : BitVec 11) (f : BitVec 52) (w : Word64)
    (h : w = BitVec.ofBool neg ++ e ++ f) :
    w.getLsbD 63 = neg ∧ w.extractLsb' 52 11 = e ∧ w.extractLsb' 0 52 = f := by
  have hb (i : Nat) : w.getLsbD i =
      if i < 52 then f.getLsbD i else if i - 52 < 11 then e.getLsbD (i - 52) else (BitVec.ofBool neg).getLsbD (i - 52 - 11) := by
    rw [h]
    refine (BitVec.getLsbD_append (x := BitVec.ofBool neg ++ e) (y := f) (i := i)).trans ?_
    by_cases h52 : i < 52
    · simp [h52]
    · simp only [h52, if_false]
      refine (BitVec.getLsbD_append (x := BitVec.ofBool neg) (y := e) (i := i - 52)).trans ?_
      by_cases h11 : i - 52 < 11 <;> simp [h11]
  refine ⟨?_, ?_, ?_⟩
  · rw [hb]; cases neg <;> rfl
  · apply BitVec.eq_of_getLsbD_eq
    intro i hi
    rw [BitVec.getLsbD_extractLsb', hb, if_neg (by omega), if_pos (by omega)]
    simp [hi]
  · apply BitVec.eq_of_getLsbD_eq
    intro i hi
    rw [BitVec.getLsbD_extractLsb', hb, if_pos (by omega)]
    simp [hi]

/-- A pattern is its three fields. -/
theorem pattern_of_fields (w : Word64) :
    w = BitVec.ofBool (w.getLsbD 63) ++ w.extractLsb' 52 11 ++ w.extractLsb' 0 52 := by
  apply BitVec.eq_of_getLsbD_eq
  intro i hi
  refine Eq.trans ?_ (BitVec.getLsbD_append (x := BitVec.ofBool (w.getLsbD 63) ++ w.extractLsb' 52 11)
    (y := w.extractLsb' 0 52) (i := i)).symm
  by_cases h52 : i < 52
  · simp [h52]
  · simp only [h52]
    refine Eq.trans ?_ (BitVec.getLsbD_append (x := BitVec.ofBool (w.getLsbD 63)) (y := w.extractLsb' 52 11)
      (i := i - 52)).symm
    by_cases h11 : i - 52 < 11
    · have e : 52 + (i - 52) = i := by omega
      simp [h11, e]
    · have e : i = 63 := by omega
      subst e
      simp only [h11]
      cases w.getLsbD 63 <;> rfl

/-- Reading back the pattern of a finite datum. -/
theorem f64OfBits_fin (neg : Bool) (e : Fin 2047) (f : BitVec 52) : f64OfBits (bitsOf (.fin neg e f)) = .fin neg e f := by
  obtain ⟨h1, h2, h3⟩ := fields_of_pattern neg (BitVec.ofNat 11 e.val) f _ rfl
  have he : (BitVec.ofNat 11 e.val).toNat = e.val := by rw [BitVec.toNat_ofNat]; omega
  have hlt := e.isLt
  simp only [f64OfBits, bitsOf]
  simp only [h1, h2, h3, he, hlt, dif_pos]

/-- The pattern of a finite datum that is not negative, as an integer. -/
theorem bitsOf_fin_toNat (e : Fin 2047) (f : BitVec 52) :
    (bitsOf (.fin false e f)).toNat = e.val * 2 ^ 52 + f.toNat := by
  have h : (bitsOf (.fin false e f)).toNat = _ := toNat_append_add (BitVec.ofBool false ++ BitVec.ofNat 11 e.val) f
  have he := e.isLt
  rw [h, toNat_append_add, BitVec.toNat_ofNat, Nat.mod_eq_of_lt (by omega)]
  simp

/-- Magnitudes are ordered as their patterns are. -/
theorem scaled_lt_of_lt {e e' : Fin 2047} {f f' : BitVec 52}
    (h : e.val * 2 ^ 52 + f.toNat < e'.val * 2 ^ 52 + f'.toNat) : scaled e f < scaled e' f' := by
  have hf := f.isLt
  have hf' := f'.isLt
  rcases Nat.lt_trichotomy e.val e'.val with hlt | heq | hgt
  · have h1 : scaled e f < 2 ^ 52 * 2 ^ (e'.val - 1) := by
      by_cases h0 : e.val = 0
      · rw [scaled, if_pos h0]
        exact lt_of_lt_of_le hf (Nat.le_mul_of_pos_right _ (Nat.two_pow_pos _))
      · rw [scaled, if_neg h0]
        obtain ⟨j, hj⟩ : ∃ j, e'.val - 1 = (e.val - 1) + 1 + j := ⟨e'.val - 1 - e.val, by omega⟩
        rw [hj, Nat.pow_add, Nat.pow_succ 2 (e.val - 1)]
        have h2 : (2 ^ 52 + f.toNat) * 2 ^ (e.val - 1) < 2 ^ 53 * 2 ^ (e.val - 1) :=
          Nat.mul_lt_mul_of_pos_right (by omega) (Nat.two_pow_pos _)
        have h3 : 2 ^ (e.val - 1) ≤ 2 ^ (e.val - 1) * 2 ^ j := Nat.le_mul_of_pos_right _ (Nat.two_pow_pos _)
        have h4 : 2 ^ 52 * (2 ^ (e.val - 1) * 2 * 2 ^ j) = 2 ^ 53 * (2 ^ (e.val - 1) * 2 ^ j) := by ring
        rw [h4]
        exact lt_of_lt_of_le h2 (Nat.mul_le_mul_left _ h3)
    have h5 : 2 ^ 52 * 2 ^ (e'.val - 1) ≤ scaled e' f' := by
      rw [scaled, if_neg (by omega)]
      exact Nat.mul_le_mul_right _ (by omega)
    exact lt_of_lt_of_le h1 h5
  · obtain rfl : e = e' := Fin.ext heq
    have h1 : f.toNat < f'.toNat := by omega
    unfold scaled
    split
    · exact h1
    · exact Nat.mul_lt_mul_of_pos_right (by omega) (Nat.two_pow_pos _)
  · omega

/-- Magnitudes are ordered as their patterns are. -/
theorem scaled_lt_iff {e e' : Fin 2047} {f f' : BitVec 52} :
    scaled e f < scaled e' f' ↔ e.val * 2 ^ 52 + f.toNat < e'.val * 2 ^ 52 + f'.toNat := by
  refine ⟨fun h => ?_, scaled_lt_of_lt⟩
  rcases Nat.lt_trichotomy (e.val * 2 ^ 52 + f.toNat) (e'.val * 2 ^ 52 + f'.toNat) with h1 | h1 | h1
  · exact h1
  · exfalso
    have hf := f.isLt
    have hf' := f'.isLt
    have h2 : e = e' := Fin.ext (by omega)
    have h3 : f = f' := BitVec.eq_of_toNat_eq (by omega)
    rw [h2, h3] at h
    exact lt_irrefl _ h
  · exact absurd (scaled_lt_of_lt h1) (by omega)

@[simp] theorem scaled_zero : scaled 0 0#52 = 0 := rfl

/-- The magnitude of `1.0`. -/
@[simp] theorem scaled_one : scaled 1023 0#52 = 2 ^ 1074 := by decide +kernel

/-- The magnitude of `2.0`. -/
@[simp] theorem scaled_two : scaled 1024 0#52 = 2 * 2 ^ 1074 := by decide +kernel

/-- The comparison of finite data. -/
@[simp] theorem flt_fin (n n' : Bool) (e e' : Fin 2047) (f f' : BitVec 52) :
    flt (.fin n e f) (.fin n' e' f') = decide (scaledInt n e f < scaledInt n' e' f') := rfl

/-- The comparison of finite data. -/
@[simp] theorem fge_fin (n n' : Bool) (e e' : Fin 2047) (f f' : BitVec 52) :
    fge (.fin n e f) (.fin n' e' f') = decide (scaledInt n' e' f' ≤ scaledInt n e f) := by
  simp only [fge, isNan, flt, Bool.not_false, Bool.true_and, ← decide_not, not_lt]

/-- A magnitude that is not negative. -/
@[simp] theorem scaledInt_false (e : Fin 2047) (f : BitVec 52) : scaledInt false e f = (scaled e f : Int) := rfl

/-- A magnitude that is negative. -/
@[simp] theorem scaledInt_true (e : Fin 2047) (f : BitVec 52) : scaledInt true e f = -(scaled e f : Int) := rfl

/-- The finite data with magnitude zero are the two zeros. -/
theorem scaled_eq_zero {e : Fin 2047} {f : BitVec 52} : scaled e f = 0 ↔ e = 0 ∧ f = 0 := by
  refine ⟨fun h => ?_, fun ⟨h1, h2⟩ => by rw [h1, h2]; rfl⟩
  exact scaled_inj (h.trans scaled_zero.symm)

/-- A pattern as an integer, by its fields. -/
theorem toNat_fields (w : Word64) :
    w.toNat = (w.getLsbD 63).toNat * 2 ^ 63 + (w.extractLsb' 52 11).toNat * 2 ^ 52 + (w.extractLsb' 0 52).toNat := by
  have h := congrArg BitVec.toNat (pattern_of_fields w)
  rw [h, toNat_append_add, toNat_append_add, BitVec.toNat_ofBool]
  ring

/-- What a pattern stands for: a finite datum by its fields, an infinity or a NaN. -/
theorem f64OfBits_cases (w : Word64) :
    (∃ n e f, f64OfBits w = .fin n e f ∧ w.toNat = n.toNat * 2 ^ 63 + (e.val * 2 ^ 52 + f.toNat)) ∨
    (2047 * 2 ^ 52 ≤ w.toNat % 2 ^ 63 ∧ ((∃ n, f64OfBits w = .inf n) ∨ f64OfBits w = .nan)) := by
  have h := toNat_fields w
  have hf := (w.extractLsb' 0 52).isLt
  have he := (w.extractLsb' 52 11).isLt
  simp only [f64OfBits]
  split
  · next hlt => exact .inl ⟨_, _, _, rfl, by rw [h]; simp only; omega⟩
  · right
    refine ⟨?_, ?_⟩
    · have hb : (w.getLsbD 63).toNat = 0 ∨ (w.getLsbD 63).toNat = 1 := by cases w.getLsbD 63 <;> simp
      omega
    · split
      · exact .inl ⟨_, rfl⟩
      · exact .inr rfl

/-- The integral part of a finite datum that is not negative (R16, R145). -/
theorem natOfF64_ffloor (e : Fin 2047) (f : BitVec 52) :
    natOfF64 (ffloor (.fin false e f)) = scaled e f / 2 ^ 1074 := by
  obtain ⟨q, sh, ⟨hq, -⟩, hs, hsh, -⟩ := scaled_normal e f
  have hfl : ffloor (.fin false e f) = packScaled false (scaled e f / 2 ^ 1074 * 2 ^ 1074) := by
    simp only [ffloor, scaledInt_false, unitExp]
    congr 2
  have hrep : Rep (scaled e f / 2 ^ 1074 * 2 ^ 1074) := by
    by_cases h : 1074 ≤ sh
    · obtain ⟨j, rfl⟩ := Nat.exists_eq_add_of_le h
      have e1 : scaled e f = q * 2 ^ j * 2 ^ 1074 := by rw [hs, Nat.pow_add]; ring
      rw [e1, Nat.mul_div_cancel _ (Nat.two_pow_pos _), ← e1]
      exact ⟨e, f, rfl⟩
    · refine Rep.of_shifted ?_ (by omega)
      refine Nat.div_lt_of_lt_mul ?_
      rw [hs, Nat.mul_comm]
      exact Nat.mul_lt_mul_of_le_of_lt (Nat.pow_le_pow_right (by omega) (by omega)) hq (Nat.two_pow_pos _)
  obtain ⟨e', f', h⟩ := hrep
  rw [hfl, ← h, packScaled_scaled]
  simp only [natOfF64, unitExp, h, Nat.mul_div_cancel _ (Nat.two_pow_pos 1074)]

/-- Multiplying by `1.0` changes nothing. -/
theorem fmul_one_fin (n : Bool) (e : Fin 2047) (f : BitVec 52) : fmul (.fin n e f) F64.one = .fin n e f := by
  have h : scaled e f * scaled 1023 0#52 = scaled e f * 2 ^ 1074 := by rw [scaled_one]
  obtain ⟨e', f', h1, h2⟩ := roundScaled_exact (n != false) (Nat.two_pow_pos unitExp) ⟨e, f, rfl⟩ h
  obtain ⟨rfl, rfl⟩ := scaled_inj h2
  simp only [fmul]
  rw [h1, Bool.bne_false]

/-- A finite datum that is not zero, divided by itself. -/
theorem fdiv_self_fin (n : Bool) (e : Fin 2047) (f : BitVec 52) (h : scaled e f ≠ 0) :
    fdiv (.fin n e f) (.fin n e f) = F64.one := by
  obtain ⟨e', f', h1, h2⟩ := roundScaled_exact (n != n) (k := 2 ^ 1074) (Nat.pos_of_ne_zero h) ⟨1023, 0, scaled_one⟩
    (Nat.mul_comm (scaled e f) (2 ^ unitExp))
  obtain ⟨rfl, rfl⟩ := scaled_inj (h2.trans scaled_one.symm)
  simp only [fdiv, if_neg h]
  rw [h1, bne_self_eq_false]

/-- A distance, without subtraction. -/
theorem gap_cases (x y : Nat) : y ≤ x + gap x y ∧ ((x ≤ y ∧ x + gap x y = y) ∨ (y ≤ x ∧ y + gap x y = x)) := by
  unfold gap
  omega

/-- The quotient of a power of two by a magnitude below a power of two rounds above the power of two it would be at it. -/
theorem lt_roundNearest_quotient (N k a b : Nat) (hN : N = 40564819207303340847894502572032 * (2 ^ b * 2 ^ a)) (hk0 : 0 < k)
    (hk : k ≤ 9007199254740991 * 2 ^ a) (hb : b ≤ 2045) : 4503599627370496 * 2 ^ b < roundNearest N k := by
  have hr : Rep (4503599627370497 * 2 ^ b) := Rep.of_shifted (by norm_num) hb
  have hg := roundNearest_gap (num := N) hk0 hr
  by_contra hc
  have h1 : roundNearest N k * k ≤ 4503599627370496 * 2 ^ b * k := Nat.mul_le_mul_right _ (not_lt.mp hc)
  have h3 : 2 ^ b * k ≤ 2 ^ b * (9007199254740991 * 2 ^ a) := Nat.mul_le_mul_left _ hk
  rw [Nat.mul_left_comm] at h3
  rw [Nat.mul_assoc] at h1
  rw [hN, Nat.mul_assoc 4503599627370497] at hg
  rw [hN] at h1
  have hQ : 0 < 2 ^ b * 2 ^ a := Nat.mul_pos (Nat.two_pow_pos _) (Nat.two_pow_pos _)
  have hpos : 0 < 2 ^ b * k := Nat.mul_pos (Nat.two_pow_pos _) hk0
  clear hN hk hb hr hc
  generalize 2 ^ b * 2 ^ a = Q at *
  generalize 2 ^ b * k = y at *
  generalize roundNearest (40564819207303340847894502572032 * Q) k * k = m at *
  obtain ⟨h4, -⟩ := gap_cases m (40564819207303340847894502572032 * Q)
  obtain ⟨-, ⟨h5, h6⟩ | ⟨h5, h6⟩⟩ := gap_cases (4503599627370497 * y) (40564819207303340847894502572032 * Q)
  · linarith
  · linarith

end Sys2Proof.Machine
end

