-- ==== Sys2Proof/Laws/Zipf.lean ====
section
/-! SUPPORT. POW64, the harmonic sums and the rank (42_zipf.md R141, R142, R145). -/

namespace Sys2Proof.Machine

set_option exponentiation.threshold 3000

/-- The decided POW64. -/
theorem config_pow64 (x y : F64) : config.pow64 x y = pow64 x y := rfl

@[simp] theorem isZero_zero (neg : Bool) : isZero (.fin neg 0 0#52) = true := rfl

@[simp] theorem isZero_one : isZero F64.one = false := by
  simp [isZero]

/-- P1 of R141. -/
@[simp] theorem pow64_zero (x : F64) (neg : Bool) : pow64 x (.fin neg 0 0#52) = F64.one := by
  rw [pow64, if_pos (isZero_zero neg)]

/-- P2 of R141. -/
@[simp] theorem one_pow64 (y : F64) : pow64 F64.one y = F64.one := by
  rw [pow64, if_pos (rfl : F64.one = F64.one), ite_self]

/-- P3 of R141. -/
@[simp] theorem pow64_one (x : F64) : pow64 x F64.one = x := by
  rw [pow64, isZero_one]
  by_cases h : x = F64.one
  · rw [h]; rfl
  · rw [if_neg Bool.false_ne_true, if_neg h, if_pos rfl]

/-- `zetaSum` as a left fold from `+0.0`, ascending. -/
theorem zetaSum_foldl (pow : F64 → F64 → F64) (nt : F64) (n : Nat) : zetaSum pow nt n =
    (List.range n).foldl (fun z k => fadd z (pow (f64OfU64 (k + 1)) nt)) F64.zero := by
  induction n with
  | zero => rfl
  | succ n ih => rw [List.range_succ, List.foldl_append, ← ih]; rfl

/-- `+0.0 + 1.0`. -/
theorem zero_fadd_one : fadd F64.zero F64.one = F64.one := by decide +kernel

/-- `zeta2` with P2 of R141. -/
theorem zetaTwo_eq (nt : F64) : zetaTwo config.pow64 nt = fadd F64.one (config.pow64 F64.two nt) := by
  rw [zetaTwo, config_pow64, one_pow64, zero_fadd_one]

/-- The test on `theta`, for a finite datum. -/
theorem thetaOk_fin (n : Bool) (e : Fin 2047) (f : BitVec 52) :
    thetaOk (.fin n e f) = true ↔ scaled e f < 2 ^ 1074 ∧ (n = true → scaled e f = 0) := by
  unfold thetaOk
  rw [Bool.and_eq_true, fge_fin, flt_fin, decide_eq_true_iff, decide_eq_true_iff, scaledInt_false, scaledInt_false, scaled_zero,
    scaled_one]
  have hp : 0 < 2 ^ 1074 := Nat.two_pow_pos _
  generalize 2 ^ 1074 = P at *
  cases n
  · rw [scaledInt_false]
    generalize scaled e f = k
    simp only [Bool.false_eq_true, false_imp_iff, and_true]
    omega
  · rw [scaledInt_true]
    generalize scaled e f = k
    simp only [true_imp_iff]
    omega

@[simp] theorem thetaOk_inf (n : Bool) : thetaOk (.inf n) = false := by cases n <;> rfl

@[simp] theorem thetaOk_nan : thetaOk .nan = false := rfl

/-- ZIPF_INIT_THETA that passes its checks. -/
theorem zipfInitThetaWith_ok {cfg : Config} {s : State} (hn : s.a0 ≠ 0) (hok : thetaOk (f64OfBits s.a1) = true) :
    zipfInitThetaWith cfg s = .next (setOk (setZipf (zipfContext cfg s.a0 (f64OfBits s.a1)) s)) :=
  congrArg Host.Outcome.next ((if_neg hn).trans (if_pos hok))

/-- ZIPF_INIT_THETA that fails a check. -/
theorem zipfInitThetaWith_domain {cfg : Config} {s : State} (h : s.a0 = 0 ∨ thetaOk (f64OfBits s.a1) = false) :
    zipfInitThetaWith cfg s = .next (raiseError .domainError s) := by
  refine congrArg Host.Outcome.next ?_
  by_cases hn : s.a0 = 0
  · exact if_pos hn
  · exact (if_neg hn).trans (if_neg (Bool.eq_false_iff.mp (h.resolve_left hn)))

/-- ZIPF_INIT_ALPHA that passes its checks. -/
theorem zipfInitAlphaWith_ok {cfg : Config} {s : State} (hn : s.a0 ≠ 0) (hok : thetaOk (cfg.alphaMap (f64OfBits s.a1)) = true) :
    zipfInitAlphaWith cfg s = .next (setOk (setZipf (zipfContext cfg s.a0 (cfg.alphaMap (f64OfBits s.a1))) s)) :=
  congrArg Host.Outcome.next ((if_neg hn).trans ((if_neg hn).trans (if_pos hok)))

/-- ZIPF_INIT_ALPHA that fails a check. -/
theorem zipfInitAlphaWith_domain {cfg : Config} {s : State} (h : s.a0 = 0 ∨ thetaOk (cfg.alphaMap (f64OfBits s.a1)) = false) :
    zipfInitAlphaWith cfg s = .next (raiseError .domainError s) := by
  refine congrArg Host.Outcome.next ?_
  by_cases hn : s.a0 = 0
  · exact if_pos hn
  · exact (if_neg hn).trans ((if_neg hn).trans (if_neg (Bool.eq_false_iff.mp (h.resolve_left hn))))

/-- A rounded positive magnitude passes the test on `theta` where it rounds below `1.0`. -/
theorem thetaOk_roundScaled {num : Nat} (h : num ≤ 2 ^ 1075) :
    thetaOk (roundScaled false num 1) = true ↔ 2 * num < (2 ^ 54 - 1) * 2 ^ 1021 := by
  have hov : num < overflowUnits * 1 := by
    refine lt_of_le_of_lt h ?_
    unfold overflowUnits
    norm_num
  obtain ⟨e, f, h1, h2⟩ := roundScaled_finite false num 1 Nat.one_pos hov
  have h3 := pow_le_roundNearest num 1 1021 Nat.one_pos
  have e1 : 2 ^ 53 * 2 ^ 1021 = 2 ^ 1074 := (Nat.pow_add 2 53 1021).symm
  rw [e1, Nat.mul_one] at h3
  rw [h1, thetaOk_fin, h2, ← not_le, h3, not_le]
  simp

/-- A rounded negative magnitude fails the test on `theta`. -/
theorem not_thetaOk_roundScaled_true {num : Nat} (h0 : 0 < num) (h : num < overflowUnits) :
    thetaOk (roundScaled true num 1) = false := by
  obtain ⟨e, f, h1, h2⟩ := roundScaled_finite true num 1 Nat.one_pos (by rwa [Nat.mul_one])
  have h3 : 1 ≤ roundNearest num 1 := le_roundNearest Nat.one_pos ⟨0, 1#52, rfl⟩ (by omega)
  rw [h1, ← Bool.not_eq_true, thetaOk_fin, h2]
  intro h4
  have := h4.2 rfl
  omega

/-- What `1.0` minus a magnitude is, before it is rounded. -/
theorem one_fsub_fin (e : Fin 2047) (f : BitVec 52) : fsub F64.one (.fin false e f) =
    if scaled e f = 2 ^ 1074 then F64.zero
    else if scaled e f < 2 ^ 1074 then roundScaled false (2 ^ 1074 - scaled e f) 1
    else roundScaled true (scaled e f - 2 ^ 1074) 1 := by
  simp only [fsub, fneg, fadd, Bool.not_false, scaledInt_false, scaledInt_true, scaled_one, Bool.false_and]
  generalize scaled e f = k
  generalize 2 ^ 1074 = P
  rcases Nat.lt_trichotomy k P with h | rfl | h
  · rw [if_neg (by omega), if_neg (by omega), if_pos h]
    have h1 : decide ((P : Int) + -(k : Int) < 0) = false := decide_eq_false (by omega)
    have h2 : ((P : Int) + -(k : Int)).natAbs = P - k := by omega
    rw [h1, h2]
  · rw [if_pos (by omega), if_pos rfl]; rfl
  · rw [if_neg (by omega), if_neg (by omega), if_neg (by omega)]
    have h1 : decide ((P : Int) + -(k : Int) < 0) = true := decide_eq_true (by omega)
    have h2 : ((P : Int) + -(k : Int)).natAbs = k - P := by omega
    rw [h1, h2]

/-- The test on `theta = 1 - q`, for a finite `q` that is not negative. -/
theorem thetaOk_one_fsub (e : Fin 2047) (f : BitVec 52) : thetaOk (fsub F64.one (.fin false e f)) = true ↔
    scaled e f ≤ 2 ^ 1074 ∧ 2 ^ 1020 < scaled e f := by
  rw [one_fsub_fin]
  have e1 : 2 ^ 1074 = 2 ^ 54 * 2 ^ 1020 := Nat.pow_add 2 54 1020
  have e2 : 2 ^ 1075 = 2 ^ 55 * 2 ^ 1020 := Nat.pow_add 2 55 1020
  have e3 : 2 ^ 1021 = 2 * 2 ^ 1020 := Nat.pow_add 2 1 1020
  have hp : 0 < 2 ^ 1020 := Nat.two_pow_pos _
  have hk := scaled_lt e f
  split
  · rename_i h
    have : thetaOk F64.zero = true := by decide +kernel
    rw [h, this]
    simp only [true_iff]
    omega
  · split
    · rw [thetaOk_roundScaled (by omega)]
      rw [e1, e3] at *
      generalize 2 ^ 1020 = P at *
      omega
    · rw [not_thetaOk_roundScaled_true (by omega) (by unfold overflowUnits; omega)]
      simp only [Bool.false_eq_true, false_iff]
      omega

/-- A rounded magnitude of at least `1.0` fails the test on `theta`. -/
theorem not_thetaOk_roundScaled {num : Nat} (h : 2 ^ 1074 ≤ num) : thetaOk (roundScaled false num 1) = false := by
  by_cases hov : overflowUnits * 1 ≤ num
  · rw [roundScaled_overflow false num 1 Nat.one_pos hov, thetaOk_inf]
  · obtain ⟨e, f, h1, h2⟩ := roundScaled_finite false num 1 Nat.one_pos (not_le.mp hov)
    have h3 : 2 ^ 1074 ≤ roundNearest num 1 := le_roundNearest Nat.one_pos ⟨1023, 0, scaled_one⟩ (by rwa [Nat.mul_one])
    rw [h1, ← Bool.not_eq_true, thetaOk_fin, h2]
    intro h4
    omega

/-- The test on `theta = 1 - q`, for a finite `q` with the sign bit set. -/
theorem not_thetaOk_one_fsub_true (e : Fin 2047) (f : BitVec 52) :
    thetaOk (fsub F64.one (.fin true e f)) = false := by
  simp only [fsub, fneg, fadd, Bool.not_true, scaledInt_false, scaled_one]
  generalize scaled e f = k at *
  have h1 : decide (((2 ^ 1074 : Nat) : Int) + (k : Int) < 0) = false := decide_eq_false (by omega)
  have h2 : (((2 ^ 1074 : Nat) : Int) + (k : Int)).natAbs = 2 ^ 1074 + k := by omega
  rw [if_neg (by omega), h1, h2]
  exact not_thetaOk_roundScaled (by omega)

/-- The value of a NEXT_F64 is finite, positive or `+0.0`, and below `1.0` (R125). -/
theorem nextDouble_fin (cfg : Config) (s : State) :
    ∃ e f, (nextDouble cfg s).1 = .fin false e f ∧ scaled e f < 2 ^ 1074 := by
  have hlt := fraction53_lt (nextWord cfg s).1 (nextWord cfg (nextWord cfg s).2).1
  obtain ⟨e, f, h1, h2⟩ := f64OfFraction53_exact hlt
  refine ⟨e, f, h1, ?_⟩
  have hp : 2 ^ 1074 = 2 ^ 53 * 2 ^ (1074 - 53) := Nat.pow_add 2 53 (1074 - 53)
  rw [h2, hp]
  exact Nat.mul_lt_mul_of_pos_right hlt (Nat.two_pow_pos _)

/-- ZIPF_DRAW with both contexts valid. -/
theorem zipfDrawWith_valid (cfg : Config) {s : State} (hg : s.gen.valid = true) (hz : s.zipf.valid = true) :
    zipfDrawWith cfg s =
    .next { s with err := none, r0 := rank cfg s.zipf (nextDouble cfg s).1,
                   gen := (nextDouble cfg s).2.gen, dctl := (nextDouble cfg s).2.dctl } := by
  rw [zipfDrawWith, hg, hz, Bool.and_self, if_pos rfl]
  exact congrArg (fun x => Host.Outcome.next (setOk (resultU64 (rank cfg s.zipf (nextDouble cfg s).1) x)))
    (nextDouble_state cfg s) |>.trans (congrArg _ (setOk_draw s _ _ _))

/-- A rank is at least 1 and at most `n`, where a value too small for the second fast path comes from `n = 1`. -/
theorem rank_range (cfg : Config) (z : Zipf) (u : F64) (hn : z.n ≠ 0)
    (h1 : z.n = 1 → flt (fmul u z.zetan) F64.one = true) :
    1 ≤ (rank cfg z u).toNat ∧ (rank cfg z u).toNat ≤ z.n.toNat := by
  have hpos : 1 ≤ z.n.toNat := Nat.one_le_iff_ne_zero.mpr (fun h => hn (BitVec.eq_of_toNat_eq h))
  have hone : (1 : Word64).toNat = 1 := rfl
  have htwo : (2 : Word64).toNat = 2 := rfl
  rw [rank]
  split
  · omega
  · rename_i hfast
    dsimp only
    have h2 : z.n.toNat ≠ 1 := fun h => hfast (h1 (BitVec.eq_of_toNat_eq h))
    split
    · omega
    · split
      · omega
      · split
        · rw [BitVec.toNat_ofNat, Nat.mod_eq_of_lt (lt_of_le_of_lt (Nat.min_le_right _ _) z.n.isLt)]
          omega
        · omega

end Sys2Proof.Machine
end

