-- ==== Sys2Proof/Laws/Commands.lean ====
section
/-! SUPPORT. Everything a command can do where it answers a next state, said once. -/

namespace Sys2Proof.Machine

/-- An unexhausted buffer of a valid generator holds the last refill (R24, R121). -/
def BufferOk (cfg : Config) (g : Gen) : Prop := g.valid = true → g.cursor.val < 256 → g.buffer = fillBuffer cfg (g.counter - 4)

/-- A buffer just refilled. -/
theorem bufferOk_refill (cfg : Config) (g : Gen) (c : Fin 257) : BufferOk cfg { refillGen cfg g with cursor := c } :=
  fun _ _ => congrArg (fillBuffer cfg) (BitVec.add_sub_cancel g.counter 4).symm

/-- A word draw keeps the buffer's relation to the counter. -/
theorem BufferOk.nextWord {cfg : Config} {s : State} (h : BufferOk cfg s.gen) : BufferOk cfg (nextWord cfg s).2.gen := by
  by_cases hc : s.gen.cursor.val ≤ 252
  · rw [nextWord_inBuffer cfg s hc]
    exact fun hv _ => h hv (by omega)
  · rw [nextWord_refill cfg s (by omega)]
    exact bufferOk_refill _ _ _

/-- A double draw keeps the buffer's relation to the counter. -/
theorem BufferOk.nextDouble {cfg : Config} {s : State} (h : BufferOk cfg s.gen) : BufferOk cfg (nextDouble cfg s).2.gen :=
  h.nextWord.nextWord

/-- Drawing bytes keeps the buffer's relation to the counter. -/
theorem BufferOk.drawBytes {cfg : Config} {s : State} (h : BufferOk cfg s.gen) (n : Nat) : BufferOk cfg (drawBytes cfg n s).2.gen := by
  obtain ⟨hv, hc, hcur, hb, -⟩ := drawBytes_gen cfg s n
  by_cases hr : refillsFor s.gen.cursor.val n = 0
  · intro h1 h2
    have hlt := s.gen.cursor.isLt
    rw [hb hr, hc, hr, Nat.mul_zero, BitVec.add_zero]
    refine h (hv ▸ h1) ?_
    rw [hcur, cursorAfter] at h2
    rw [refillsFor] at hr
    by_cases hn : n = 0
    · rw [if_pos hn] at h2; exact h2
    · rw [if_neg hn] at h2 hr; omega
  · exact fun _ _ => drawBytes_buffer cfg s n hr

/-- A word draw leaves the dispatch flag alone or touches it. -/
theorem nextWord_dctl (cfg : Config) (s : State) :
    (nextWord cfg s).2.dctl = s.dctl ∨ (nextWord cfg s).2.dctl = touchDctl cfg s.dctl := by
  by_cases hc : s.gen.cursor.val ≤ 252
  · rw [nextWord_inBuffer cfg s hc]; exact .inl rfl
  · rw [nextWord_refill cfg s (by omega)]; exact .inr rfl

/-- A double draw leaves the dispatch flag alone or touches it. -/
theorem nextDouble_dctl (cfg : Config) (s : State) :
    (nextDouble cfg s).2.dctl = s.dctl ∨ (nextDouble cfg s).2.dctl = touchDctl cfg s.dctl := by
  have e : (nextDouble cfg s).2 = (nextWord cfg (nextWord cfg s).2).2 := rfl
  rw [e]
  rcases nextWord_dctl cfg s with h | h <;> rcases nextWord_dctl cfg (nextWord cfg s).2 with h' | h' <;> rw [h', h]
  · exact .inl rfl
  · exact .inr rfl
  · exact .inr rfl
  · exact .inr (touchDctl_idem _ _)

/-- GENERATE without a valid generator. -/
theorem generateWith_invalid (cfg : Config) {s : State} (h : s.gen.valid = false) :
    generateWith cfg s = .next (raiseError .notInitialised s) := if_neg (Bool.eq_false_iff.mp h)

/-- NEXT_U32 without a valid generator. -/
theorem nextU32With_invalid (cfg : Config) {s : State} (h : s.gen.valid = false) :
    nextU32With cfg s = .next (raiseError .notInitialised s) := if_neg (Bool.eq_false_iff.mp h)

/-- NEXT_F64 without a valid generator. -/
theorem nextF64With_invalid (cfg : Config) {s : State} (h : s.gen.valid = false) :
    nextF64With cfg s = .next (raiseError .notInitialised s) := if_neg (Bool.eq_false_iff.mp h)

/-- ZIPF_DRAW without both contexts valid. -/
theorem zipfDrawWith_invalid (cfg : Config) {s : State} (h : (s.gen.valid && s.zipf.valid) = false) :
    zipfDrawWith cfg s = .next (raiseError .notInitialised s) := if_neg (Bool.eq_false_iff.mp h)

/-- SCRAMBLE without a valid key. -/
theorem scrambleWith_invalid (cfg : Config) {s : State} (h : s.key.valid = false) :
    scrambleWith cfg s = .next (raiseError .notInitialised s) := if_neg (Bool.eq_false_iff.mp h)

/-- The fields a command that ends OK may have changed, and to what. -/
structure Changes (cfg : Config) (i : Instr) (s : State) (r : Word64) (g : Gen) (d : Dctl) (z : Zipf) (k : Key) (m : Memory) : Prop where
  r0 : r = s.r0 ∨ writesR0 i = true
  gen : g = s.gen ∨
    (i ∈ [Instr.seed, .generate, .nextU32, .nextF64, .zipfDraw] ∧ g.valid = true ∧ (BufferOk cfg s.gen → BufferOk cfg g))
  dctl : d = s.dctl ∨ (i ∈ [Instr.generate, .nextU32, .nextF64, .mix, .zipfDraw] ∧ d = touchDctl cfg s.dctl) ∨
    (i = .maybeEnableAccel ∧ d = probe cfg s.dctl) ∨
    (i = .disableAccel ∧ d = { s.dctl with disabled := true, mode := .portable })
  zipf : z = s.zipf ∨ (i ∈ [Instr.zipfInitAlpha, .zipfInitTheta] ∧
    ∃ n theta, n ≠ 0 ∧ thetaOk theta = true ∧ z = zipfContext cfg n theta)
  key : k = s.key ∨ (i = .rekey ∧ k = { valid := true, tables := keySchedule cfg s.a0 })
  written : m = s.written ∨ (i ∈ [Instr.generate, .mix] ∧ (s.written.wf → m.wf))

/-- What a command can do where it answers a next state: it raises the error of its table entry, or it ends OK and has
changed nothing but the fields named. -/
theorem execWith_next {cfg : Config} {i : Instr} {s t : State} (h : execWith cfg i s = .next t) :
    (∃ e, errorOf cfg i s = some e ∧ t = raiseError e s) ∨
    (errorOf cfg i s = none ∧ ∃ r g d z k m, Changes cfg i s r g d z k m ∧
      t = { s with err := none, r0 := r, gen := g, dctl := d, zipf := z, key := k, written := m }) := by
  cases i with
  | seed =>
    cases h
    exact .inr ⟨rfl, _, _, _, _, _, _, ⟨.inl rfl, .inr ⟨by decide, rfl, fun _ _ hc => absurd hc (Nat.lt_irrefl 256)⟩, .inl rfl, .inl rfl,
      .inl rfl, .inl rfl⟩, rfl⟩
  | generate =>
    have h : generateWith cfg s = .next t := h
    cases hv : s.gen.valid with
    | false =>
      rw [generateWith_invalid cfg hv] at h
      cases h
      exact .inl ⟨.notInitialised, by simp [errorOf, hv], rfl⟩
    | true =>
      cases hw : s.written.writeBytes cfg s.a0 (drawBytes cfg s.a1.toNat s).1 with
      | error a => rw [generateWith_refused cfg s hv hw] at h; cases h
      | ok m =>
        rw [generateWith_valid cfg s hv hw] at h
        cases h
        obtain ⟨h1, -, -, -, h5⟩ := drawBytes_gen cfg s s.a1.toNat
        refine .inr ⟨by simp [errorOf, hv], _, _, _, _, _, _, ⟨.inl rfl, .inr ⟨by decide, h1.trans hv, fun hb => hb.drawBytes _⟩, ?_,
          .inl rfl, .inl rfl, .inr ⟨by decide, fun hm => Memory.writeBytes_wf hm hw⟩⟩, rfl⟩
        rw [h5]
        split
        · exact .inl rfl
        · exact .inr (.inl ⟨by decide, rfl⟩)
  | nextU32 =>
    have h : nextU32With cfg s = .next t := h
    cases hv : s.gen.valid with
    | false =>
      rw [nextU32With_invalid cfg hv] at h
      cases h
      exact .inl ⟨.notInitialised, by simp [errorOf, hv], rfl⟩
    | true =>
      rw [nextU32With_valid cfg s hv] at h
      cases h
      exact .inr ⟨by simp [errorOf, hv], _, _, _, _, _, _, ⟨.inr rfl, .inr ⟨by decide, (nextWord_valid cfg s).trans hv,
        fun hb => hb.nextWord⟩, (nextWord_dctl cfg s).imp id (fun h => .inl ⟨by decide, h⟩), .inl rfl, .inl rfl, .inl rfl⟩, rfl⟩
  | nextF64 =>
    have h : nextF64With cfg s = .next t := h
    cases hv : s.gen.valid with
    | false =>
      rw [nextF64With_invalid cfg hv] at h
      cases h
      exact .inl ⟨.notInitialised, by simp [errorOf, hv], rfl⟩
    | true =>
      rw [nextF64With_valid cfg s hv] at h
      cases h
      exact .inr ⟨by simp [errorOf, hv], _, _, _, _, _, _, ⟨.inr rfl, .inr ⟨by decide, (nextDouble_valid cfg s).trans hv,
        fun hb => hb.nextDouble⟩, (nextDouble_dctl cfg s).imp id (fun h => .inl ⟨by decide, h⟩), .inl rfl, .inl rfl, .inl rfl⟩, rfl⟩
  | mix =>
    have h : mixWith cfg s = .next t := h
    rw [mixWith] at h
    cases hw : s.written.writeBytes cfg (intA1 s) (mixBytes cfg (intA0 s)) with
    | error a => rw [hw] at h; cases h
    | ok m =>
      rw [hw] at h
      cases h
      exact .inr ⟨rfl, _, _, _, _, _, _, ⟨.inl rfl, .inl rfl, .inr (.inl ⟨by decide, rfl⟩), .inl rfl, .inl rfl,
        .inr ⟨by decide, fun hm => Memory.writeBytes_wf hm hw⟩⟩, rfl⟩
  | zipfInitAlpha =>
    have h : zipfInitAlphaWith cfg s = .next t := h
    by_cases hc : s.a0 ≠ 0 ∧ thetaOk (cfg.alphaMap (f64OfBits s.a1)) = true
    · rw [zipfInitAlphaWith_ok hc.1 hc.2] at h
      cases h
      exact .inr ⟨if_pos hc, _, _, _, _, _, _, ⟨.inl rfl, .inl rfl, .inl rfl, .inr ⟨by decide, _, _, hc.1, hc.2, rfl⟩, .inl rfl,
        .inl rfl⟩, rfl⟩
    · rw [zipfInitAlphaWith_domain (by rwa [← Bool.not_eq_true, ← not_ne_iff, ← not_and_or])] at h
      cases h
      exact .inl ⟨_, if_neg hc, rfl⟩
  | zipfInitTheta =>
    have h : zipfInitThetaWith cfg s = .next t := h
    by_cases hc : s.a0 ≠ 0 ∧ thetaOk (f64OfBits s.a1) = true
    · rw [zipfInitThetaWith_ok hc.1 hc.2] at h
      cases h
      exact .inr ⟨if_pos hc, _, _, _, _, _, _, ⟨.inl rfl, .inl rfl, .inl rfl, .inr ⟨by decide, _, _, hc.1, hc.2, rfl⟩, .inl rfl,
        .inl rfl⟩, rfl⟩
    · rw [zipfInitThetaWith_domain (by rwa [← Bool.not_eq_true, ← not_ne_iff, ← not_and_or])] at h
      cases h
      exact .inl ⟨_, if_neg hc, rfl⟩
  | zipfDraw =>
    have h : zipfDrawWith cfg s = .next t := h
    cases hv : s.gen.valid && s.zipf.valid with
    | false =>
      rw [zipfDrawWith_invalid cfg hv] at h
      cases h
      exact .inl ⟨.notInitialised, by simp only [errorOf, hv]; rfl, rfl⟩
    | true =>
      obtain ⟨h1, h2⟩ := Bool.and_eq_true_iff.mp hv
      rw [zipfDrawWith_valid cfg h1 h2] at h
      cases h
      exact .inr ⟨by simp only [errorOf, hv]; rfl, _, _, _, _, _, _, ⟨.inr rfl, .inr ⟨by decide, (nextDouble_valid cfg s).trans h1,
        fun hb => hb.nextDouble⟩, (nextDouble_dctl cfg s).imp id (fun h => .inl ⟨by decide, h⟩), .inl rfl, .inl rfl, .inl rfl⟩, rfl⟩
  | rekey =>
    cases h
    exact .inr ⟨rfl, _, _, _, _, _, _, ⟨.inl rfl, .inl rfl, .inl rfl, .inl rfl, .inr ⟨rfl, rfl⟩, .inl rfl⟩, rfl⟩
  | scramble =>
    have h : scrambleWith cfg s = .next t := h
    cases hv : s.key.valid with
    | false =>
      rw [scrambleWith_invalid cfg hv] at h
      cases h
      exact .inl ⟨.notInitialised, by simp [errorOf, hv], rfl⟩
    | true =>
      rw [scrambleWith, if_pos hv] at h
      cases h
      exact .inr ⟨by simp [errorOf, hv], _, _, _, _, _, _, ⟨.inr rfl, .inl rfl, .inl rfl, .inl rfl, .inl rfl, .inl rfl⟩, rfl⟩
  | disableAccel =>
    cases h
    exact .inr ⟨rfl, _, _, _, _, _, _, ⟨.inl rfl, .inl rfl, .inr (.inr (.inr ⟨rfl, rfl⟩)), .inl rfl, .inl rfl, .inl rfl⟩, rfl⟩
  | maybeEnableAccel =>
    cases h
    exact .inr ⟨rfl, _, _, _, _, _, _, ⟨.inl rfl, .inl rfl, .inr (.inr (.inl ⟨rfl, rfl⟩)), .inl rfl, .inl rfl, .inl rfl⟩, rfl⟩

end Sys2Proof.Machine
end

