-- ==== Sys2Proof/Laws/Decode.lean ====
section
/-! SUPPORT. The fields of command words, and the opcode map and its inverse (30_encoding.md R70, R72). -/

namespace Sys2Proof

/-- The opcode map and `opcOf` are inverse. -/
theorem commandOfOpc_eq_some {o : BitVec 8} {i : Instr} : commandOfOpc o = some i ↔ o = opcOf i := by
  revert o
  cases i <;> decide +kernel

/-- The assigned operation codes are those of the commands. -/
theorem opcode_assigned (o : BitVec 8) : assignedOpcs.contains o = (commandOfOpc o).isSome := by
  revert o
  decide +kernel

/-- A word is its two fields (R70). -/
theorem word_fields (w : Word32) : w = w.extractLsb' 8 24 ++ w.extractLsb' 0 8 := by
  apply BitVec.eq_of_getLsbD_eq
  intro i hi
  refine Eq.trans ?_ (BitVec.getLsbD_append (x := w.extractLsb' 8 24) (y := w.extractLsb' 0 8) (i := i)).symm
  by_cases h : i < 8
  · simp [h]
  · have h24 : i - 8 < 24 := by omega
    have h8 : 8 + (i - 8) = i := by omega
    simp [h, h24, h8]

@[simp] theorem encode_zero_field (i : Instr) : (encode i).extractLsb' 8 24 = 0 := by cases i <;> decide

@[simp] theorem encode_opc_field (i : Instr) : (encode i).extractLsb' 0 8 = opcOf i := by cases i <;> decide

end Sys2Proof
end

