-- ==== Sys2Proof/Laws/PerInstr.lean ====
section
/-! SUPPORT. Per command: its word has a zero upper field and an assigned operation code, which selects it (30_encoding.md R70,
R72). -/

namespace Sys2Proof.Laws.EncodedWord

/-- The word of a command is below 256, is well formed, and its operation code selects the command. -/
def Statement (i : Instr) : Prop :=
  (encode i).toNat < 256 ∧ wordWellFormed (encode i) = true ∧ commandOfOpc (opcOf i) = some i

theorem seed : Statement .seed := by
  unfold Statement
  decide

theorem generate : Statement .generate := by
  unfold Statement
  decide

theorem nextU32 : Statement .nextU32 := by
  unfold Statement
  decide

theorem nextF64 : Statement .nextF64 := by
  unfold Statement
  decide

theorem mix : Statement .mix := by
  unfold Statement
  decide

theorem zipfInitAlpha : Statement .zipfInitAlpha := by
  unfold Statement
  decide

theorem zipfInitTheta : Statement .zipfInitTheta := by
  unfold Statement
  decide

theorem zipfDraw : Statement .zipfDraw := by
  unfold Statement
  decide

theorem rekey : Statement .rekey := by
  unfold Statement
  decide

theorem scramble : Statement .scramble := by
  unfold Statement
  decide

theorem disableAccel : Statement .disableAccel := by
  unfold Statement
  decide

theorem maybeEnableAccel : Statement .maybeEnableAccel := by
  unfold Statement
  decide

end Sys2Proof.Laws.EncodedWord
end

