-- ==== Sys2Proof/Laws/Port.lean ====
section
/-! SUPPORT. Steps and runs: what one input does, and runs of several steps (10_state.md R38, 30_encoding.md R77). -/

namespace Sys2Proof.Machine

/-- A step with an input waiting. -/
theorem stepWith_of_inputs (cfg : Config) {s : State} {i : HostInput} {rest : List HostInput} (h : s.inputs = i :: rest) :
    stepWith cfg s = consume cfg (execWith cfg) i (setInputs rest s) := by
  simp only [stepWith, stepInputs, h]

/-- A step with none. -/
theorem stepWith_of_idle (cfg : Config) {s : State} (h : s.inputs = []) : stepWith cfg s = .next s := by
  simp only [stepWith, stepInputs, h]

/-- `exec` is the commands on the model's own configuration. -/
theorem execWith_config : execWith config = exec := by
  funext i s
  cases i <;> rfl

/-- `step` is the step on the model's own configuration. -/
theorem stepWith_config : stepWith config = step := by
  funext s
  rw [stepWith, execWith_config, step]

/-- A step with an input waiting. -/
theorem step_of_inputs {s : State} {i : HostInput} {rest : List HostInput} (h : s.inputs = i :: rest) :
    step s = consume config exec i (setInputs rest s) := by
  rw [← stepWith_config, stepWith_of_inputs config h, execWith_config]

/-- A step with none. -/
theorem step_of_idle {s : State} (h : s.inputs = []) : step s = .next s := by
  rw [← stepWith_config, stepWith_of_idle config h]

/-- A run goes on from the next state. -/
theorem run_of_next {s t : State} (n : Nat) (h : step s = .next t) :
    Host.Core.run core (n + 1) s = Host.Core.run core n t := by
  have e := Host.Core.run.eq_2 core s n
  rw [show core.step s = .next t from h] at e
  exact e

/-- A run of one step is the step. -/
theorem run_one (s : State) : Host.Core.run core 1 s = step s := by
  have e := Host.Core.run.eq_2 core s 0
  generalize ho : core.step s = o at e
  refine e.trans (Eq.trans ?_ ho.symm)
  cases o <;> rfl

/-- A write to a 64-bit register takes one step of a run. -/
theorem run_of_wr64 {s : State} {r : Reg64} {v : Word64} {rest : List HostInput} (n : Nat)
    (h : s.inputs = .wr64 r v :: rest) :
    Host.Core.run core (n + 1) s = Host.Core.run core n (write64 r v (setInputs rest s)) :=
  run_of_next n (step_of_inputs h)

/-- What a step can be, on a configuration: waiting, a write, a command, an illegal word, a read or RESET. -/
theorem stepWith_cases {cfg : Config} {s t : State} (h : stepWith cfg s = .next t) :
    (s.inputs = [] ∧ t = s) ∨
    ∃ i rest, s.inputs = i :: rest ∧
      ((∃ r v, i = .wr64 r v ∧ t = write64 r v (setInputs rest s)) ∨
       (∃ w c, i = .wr32 .cmd w ∧ decode w = .ok c ∧ execWith cfg c (setInputs rest s) = .next t) ∨
       (∃ w e, i = .wr32 .cmd w ∧ decode w = .error e ∧ t = raiseError .illegalCommand (setInputs rest s)) ∨
       (∃ r w, i = .wr32 r w ∧ r ≠ .cmd ∧ t = setInputs rest s) ∨
       (∃ r, i = .rd r ∧ t = hostRead cfg r (setInputs rest s)) ∨
       (i = .reset ∧ t = pulseReset (setInputs rest s))) := by
  cases hi : s.inputs with
  | nil => rw [stepWith_of_idle cfg hi] at h; cases h; exact .inl ⟨rfl, rfl⟩
  | cons i rest =>
    rw [stepWith_of_inputs cfg hi] at h
    refine .inr ⟨i, rest, rfl, ?_⟩
    cases i with
    | wr64 r v => cases h; exact .inl ⟨r, v, rfl, rfl⟩
    | wr32 r w =>
      cases r with
      | cmd =>
        simp only [consume, write32, writeCmd] at h
        cases hd : decode w with
        | ok c => rw [hd] at h; exact .inr (.inl ⟨w, c, rfl, hd, h⟩)
        | error e => rw [hd] at h; cases h; exact .inr (.inr (.inl ⟨w, e, rfl, hd, rfl⟩))
      | status => cases h; exact .inr (.inr (.inr (.inl ⟨_, w, rfl, by decide, rfl⟩)))
      | dctl => cases h; exact .inr (.inr (.inr (.inl ⟨_, w, rfl, by decide, rfl⟩)))
    | rd r => cases h; exact .inr (.inr (.inr (.inr (.inl ⟨r, rfl, rfl⟩))))
    | reset => cases h; exact .inr (.inr (.inr (.inr (.inr ⟨rfl, rfl⟩))))

end Sys2Proof.Machine
end

