-- ==== Sys2Proof/Laws/Scrambler.lean ====
section
/-! SUPPORT. The scrambler: the rounds without swaps, their inverse, the key bytes and the schedule (43_scrambler.md R173,
R174, R176). -/

namespace Sys2Proof.Machine

/-- The halves after `i` double rounds of the form without swaps (R173). -/
def unrolled (f : Word32 → Word32) (p : Nat → Word32) (l r : Word32) : Nat → Word32 × Word32
  | 0 => (l ^^^ p 0, r)
  | i + 1 =>
    let x := unrolled f p l r i
    let xr := x.2 ^^^ (f x.1 ^^^ p (2 * i + 1))
    let xl := x.1 ^^^ (f xr ^^^ p (2 * i + 2))
    (xl, xr)

/-- The swapped rounds against the form without swaps. -/
theorem foldl_feistelRound (f : Word32 → Word32) (p : Nat → Word32) (l r : Word32) (n : Nat) :
    let x := ((List.range (2 * n)).map p).foldl (feistelRound f) (l, r)
    (x.1 ^^^ p (2 * n), x.2) = unrolled f p l r n := by
  induction n with
  | zero => rfl
  | succ n ih =>
    have e : 2 * (n + 1) = 2 * n + 1 + 1 := rfl
    simp only [e, List.range_succ, List.map_append, List.map_cons, List.map_nil, List.foldl_append, List.foldl_cons,
      List.foldl_nil] at ih ⊢
    generalize ((List.range (2 * n)).map p).foldl (feistelRound f) (l, r) = x at ih ⊢
    simp only [unrolled, ← ih, feistelRound, BitVec.xor_assoc]

/-- The subkeys by number. -/
def subkey (p : Vector Word32 18) (i : Nat) : Word32 := p[i % 18]'(Nat.mod_lt _ (by decide))

/-- A subkey by a number in range. -/
theorem subkey_eq (p : Vector Word32 18) {i : Nat} (h : i < 18) : subkey p i = p[i] := by
  simp only [subkey, Nat.mod_eq_of_lt h]

/-- The sixteen subkeys of the rounds. -/
theorem take_subkeys (p : Vector Word32 18) : p.toList.take 16 = (List.range 16).map (subkey p) := by
  apply List.ext_getElem
  · simp
  · intro i h1 h2
    have hi : i < 16 := by simpa using h2
    simp only [List.getElem_take, Vector.getElem_toList, List.getElem_map, List.getElem_range]
    exact (subkey_eq p (by omega)).symm

/-- ROUND_FORM without swaps. -/
theorem classicalRounds_eq (f : Word32 → Word32) (p : Vector Word32 18) (l r : Word32) :
    classicalRounds f p (l, r) = ((unrolled f (subkey p) l r 8).2 ^^^ p[17], (unrolled f (subkey p) l r 8).1) := by
  have h := foldl_feistelRound f (subkey p) l r 8
  simp only [classicalRounds, take_subkeys]
  rw [← h]
  rfl

/-- The rounds with the subkeys in reverse order undo the rounds. -/
theorem unrolled_reverse (f : Word32 → Word32) (p q : Nat → Word32) (l r : Word32) (hq : ∀ i, i ≤ 17 → q i = p (17 - i))
    (i : Nat) (hi : i ≤ 8) :
    unrolled f q ((unrolled f p l r 8).2 ^^^ p 17) (unrolled f p l r 8).1 i =
      ((unrolled f p l r (8 - i)).2, (unrolled f p l r (8 - i)).1) := by
  induction i with
  | zero => simp [unrolled, hq]
  | succ i ih =>
    obtain ⟨j, hj⟩ : ∃ j, 8 - i = j + 1 := ⟨7 - i, by omega⟩
    have hj' : 8 - (i + 1) = j := by omega
    have h1 : q (2 * i + 1) = p (2 * j + 2) := by rw [hq _ (by omega)]; congr 1; omega
    have h2 : q (2 * i + 2) = p (2 * j + 1) := by rw [hq _ (by omega)]; congr 1; omega
    rw [unrolled, ih (by omega), hj, hj', h1, h2]
    simp [unrolled]

/-- ROUND_FORM is undone by itself with the subkeys in reverse order. -/
theorem classicalRounds_reverse (f : Word32 → Word32) (p : Vector Word32 18) (ab : Word32 × Word32) :
    classicalRounds f (Vector.ofFn (fun i : Fin 18 => p[17 - i.val])) (classicalRounds f p ab) = ab := by
  obtain ⟨l, r⟩ := ab
  have hq : ∀ i, i ≤ 17 → subkey (Vector.ofFn (fun i : Fin 18 => p[17 - i.val])) i = subkey p (17 - i) := by
    intro i hi
    rw [subkey_eq _ (by omega), subkey_eq _ (by omega), Vector.getElem_ofFn]
  have h := unrolled_reverse f (subkey p) _ l r hq 8 (by omega)
  have h17 : p[17] = subkey p 17 := (subkey_eq p (by omega)).symm
  rw [classicalRounds_eq f p, h17, classicalRounds_eq, h, Vector.getElem_ofFn]
  have h0 : p[17 - 17] = subkey p 0 := (subkey_eq p (by omega)).symm
  rw [h0]
  simp [unrolled]

/-- Splitting a joined value. -/
theorem split_join (a : HalfAssign) (x : Word32 × Word32) : splitHalves a (joinHalves a x) = x := by
  cases a <;> simp only [splitHalves, joinHalves, hi32_concat32, lo32_concat32]

/-- Joining a split value. -/
theorem join_split (a : HalfAssign) (v : Word64) : joinHalves a (splitHalves a v) = v := by
  cases a <;> simp only [splitHalves, joinHalves, concat32_hi_lo]

/-- `F` does not read the subkeys. -/
theorem feistelF_p (cfg : Config) (t : Tables) (p : Vector Word32 18) :
    feistelF cfg { t with p := p } = feistelF cfg t := rfl

/-- The word XORed into a subkey is a half of the key (R174). -/
theorem keyWord_msbFirst (k : Word64) (i : Nat) : keyWord .msbFirst k i = halfAt k i := by
  have hk := k.isLt
  rcases Nat.mod_two_eq_zero_or_one i with h | h
  · have h0 : 4 * i % 8 = 0 := by omega
    have h1 : (4 * i + 1) % 8 = 1 := by omega
    have h2 : (4 * i + 2) % 8 = 2 := by omega
    have h3 : (4 * i + 3) % 8 = 3 := by omega
    rw [halfAt, if_pos h, keyWord, h0, h1, h2, h3]
    apply BitVec.eq_of_toNat_eq
    simp only [wordBE, keyByte, hi32, toNat_append_add, BitVec.extractLsb'_toNat, Nat.shiftRight_eq_div_pow]
    omega
  · have h0 : 4 * i % 8 = 4 := by omega
    have h1 : (4 * i + 1) % 8 = 5 := by omega
    have h2 : (4 * i + 2) % 8 = 6 := by omega
    have h3 : (4 * i + 3) % 8 = 7 := by omega
    rw [halfAt, if_neg (by omega), keyWord, h0, h1, h2, h3]
    apply BitVec.eq_of_toNat_eq
    simp only [wordBE, keyByte, lo32, toNat_append_add, BitVec.extractLsb'_toNat, Nat.shiftRight_eq_div_pow]
    omega

/-- The 521 passes of the schedule in order (R174, step 3): nine over `P`, then 128 over each S-box. -/
def schedulePass (cfg : Config) : Fin 9 ⊕ (Fin 4 × Fin 128) → Tables × Word64 → Tables × Word64
  | .inl i, td => scheduleP cfg td i
  | .inr (b, i), td => scheduleS cfg b td i

/-- The passes by number. -/
def passes : List (Fin 9 ⊕ (Fin 4 × Fin 128)) :=
  (List.finRange 9).map .inl ++ (List.finRange 4).flatMap (fun b => (List.finRange 128).map (fun i => .inr (b, i)))

/-- There are 521 passes. -/
theorem passes_length : passes.length = 521 := by decide +kernel

/-- The tables and the last output after `j` passes. -/
def afterPasses (cfg : Config) (k : Word64) (j : Nat) : Tables × Word64 :=
  (passes.take j).foldl (fun td q => schedulePass cfg q td) (keyedTables cfg k, 0)

/-- The key schedule is the tables after the last pass. -/
theorem keySchedule_eq (cfg : Config) (k : Word64) : keySchedule cfg k = (afterPasses cfg k 521).1 := by
  rw [afterPasses, List.take_of_length_le (le_of_eq passes_length), passes, List.foldl_append, List.foldl_map, List.foldl_flatMap]
  simp only [List.foldl_map]
  rfl

/-- One more pass. -/
theorem afterPasses_succ (cfg : Config) (k : Word64) (j : Nat) (h : j < passes.length) :
    afterPasses cfg k (j + 1) = schedulePass cfg passes[j] (afterPasses cfg k j) := by
  rw [afterPasses, List.take_succ_eq_append_getElem h, List.foldl_append]
  rfl

/-- Which pass has which number. -/
theorem passes_getElem : ∀ j : Fin 521, passes[j.val]'(by rw [passes_length]; exact j.isLt) =
    if h : j.val < 9 then .inl ⟨j.val, h⟩
    else .inr (⟨(j.val - 9) / 128, by omega⟩, ⟨(j.val - 9) % 128, by omega⟩) := by decide +kernel

/-- What one pass writes into a vector of words: an output at the entries `2i` and `2i + 1`. -/
theorem set_pair {n : Nat} (p : Vector Word32 n) (d : Word64) (i j : Nat) (h1 : 2 * i + 1 < n) (hj : j < n) :
    ((p.set (2 * i) (hi32 d) (by omega)).set (2 * i + 1) (lo32 d) h1)[j] = if i = j / 2 then halfAt d j else p[j] := by
  rw [Vector.getElem_set, Vector.getElem_set, halfAt]
  by_cases h : i = j / 2
  · rw [if_pos h]
    by_cases he : j % 2 = 0
    · rw [if_neg (by omega), if_pos (by omega), if_pos he]
    · rw [if_pos (by omega), if_neg he]
  · rw [if_neg h, if_neg (by omega), if_neg (by omega)]

/-- What a pass over `P` does. -/
theorem scheduleP_p (cfg : Config) (td : Tables × Word64) (i : Fin 9) (j : Nat) (hj : j < 18) :
    (scheduleP cfg td i).1.p[j] = if i.val = j / 2 then halfAt (scheduleBlock cfg td.1 td.2) j else td.1.p[j] :=
  set_pair td.1.p _ i.val j (by omega) hj

/-- What a pass over an S-box does. -/
theorem scheduleS_s (cfg : Config) (b : Fin 4) (td : Tables × Word64) (i : Fin 128) (c : Nat) (hc : c < 4) (j : Nat)
    (hj : j < 256) : (scheduleS cfg b td i).1.s[c][j] =
      if b.val = c ∧ i.val = j / 2 then halfAt (scheduleBlock cfg td.1 td.2) j else td.1.s[c][j] := by
  have h : (scheduleS cfg b td i).1.s[c] = if b.val = c then _ else td.1.s[c] := Vector.getElem_set (hi := b.isLt) (hj := hc)
  rw [h]
  by_cases hb : b.val = c
  · subst hb
    simp only [if_true, true_and]
    exact set_pair td.1.s[b.val] _ i.val j (by omega) hj
  · rw [if_neg hb, if_neg (fun h => hb h.1)]

end Sys2Proof.Machine
end

