-- ==== Sys2Proof/Tests/Slice0.lean ====
section
/-! SUPPORT. Tests against the spec's encodings and test vectors (95_test_vectors.md; the vector is named at each test), and
for every obligation with hypotheses a witness that meets them. -/

namespace Sys2Proof.Tests

open Sys2Proof.Machine

/-- The outcome is a next state of which `p` holds. -/
def answers (o : Host.Outcome State Fault Refusal) (p : State → Bool) : Bool :=
  match o with
  | .next t => p t
  | .fault _ => false
  | .refused _ => false

/-- The outcome is the stop of a refused write at an address. -/
def stopsAt (o : Host.Outcome State Fault Refusal) (a : Word64) : Bool :=
  match o with
  | .next _ => false
  | .fault r => r == .hostMemRefused a
  | .refused _ => false

/-- Reset with operands. -/
def withOperands (a b : Word64) : State := { State.reset with a0 := a, a1 := b }

/-- As after SEED. -/
def seeded (c a b : Word64) : State :=
  { withOperands a b with gen := { State.reset.gen with valid := true, counter := c, cursor := 256 } }

/-- A generator that stands at a cursor in the first buffer of the stream of 0. -/
def inBuffer (cursor : Fin 257) : State :=
  { State.reset with gen := { valid := true, counter := 4, cursor := cursor, buffer := fillBuffer config 0 } }

/-- A seeded state with the uniform Zipf context of `n` ranks. -/
def uniform (n : Word64) : State := { seeded 0 0 0 with zipf := zipfContext config n F64.zero }

/-- A state whose scrambler has the initial table. -/
def keyed (v : Word64) : State := { withOperands v 0 with key := { valid := true, tables := initTable } }

/-- A platform that refuses the `size` addresses from `base` on. -/
def refusing (base : Word64) (size : Nat) : Config := configOn false (fun a => decide ((a - base).toNat < size))

/-- A state with inputs waiting. -/
def waiting (is : List HostInput) : State := { State.reset with inputs := is }

/-! ### Words (30_encoding.md R70 to R73; V-ENC-1, V-ENC-2) -/

/-- An upper field that is not zero is refused. -/
theorem test_illFormed_zero : wordWellFormed 0x00000101 = false ∧ wordWellFormed 0x80000003 = false := by decide

/-- An operation code outside the table is refused. -/
theorem test_illFormed_opc : wordWellFormed 0x00000000 = false ∧ wordWellFormed 0x00000006 = false ∧
    wordWellFormed 0x00000013 = false ∧ wordWellFormed 0x00000022 = false ∧ wordWellFormed 0x00000032 = false ∧
    wordWellFormed 0x000000FF = false := by decide

theorem test_decode_generator : decode 0b00000000000000000000000000000001 = .ok .seed ∧
    decode 0b00000000000000000000000000000010 = .ok .generate ∧
    decode 0b00000000000000000000000000000011 = .ok .nextU32 ∧
    decode 0b00000000000000000000000000000100 = .ok .nextF64 ∧
    decode 0b00000000000000000000000000000101 = .ok .mix := by decide

theorem test_decode_zipf : decode 0b00000000000000000000000000010000 = .ok .zipfInitAlpha ∧
    decode 0b00000000000000000000000000010001 = .ok .zipfInitTheta ∧
    decode 0b00000000000000000000000000010010 = .ok .zipfDraw := by decide

theorem test_decode_scrambler : decode 0b00000000000000000000000000100000 = .ok .rekey ∧
    decode 0b00000000000000000000000000100001 = .ok .scramble := by decide

theorem test_decode_dispatch : decode 0b00000000000000000000000000110000 = .ok .disableAccel ∧
    decode 0b00000000000000000000000000110001 = .ok .maybeEnableAccel := by decide

theorem test_decode_illegal : decode 0xFFFFFFFF = .error .nonzeroReserved ∧
    decode 0x00000013 = .error (.unassignedOpcode 0x13) := by decide

/-- A command placed by `withFetchWord` is decoded and runs (V-ERR-1: `SEED 5` after an error gives `00000090`). -/
theorem test_withFetchWord_seed : answers
    (step (({ withOperands 5 0 with err := some .illegalCommand, errSticky := true }).withFetchWord 32 0x00000001))
    (fun t => statusWord t == 0x00000090 && t.gen.counter == 5) = true := by decide

/-- V-ERR-1, V-ERR-2: an illegal word reports ILLEGAL_COMMAND before anything else. -/
theorem test_illegal_word : answers (step (waiting [.wr32 .cmd 0x00000112])) (fun t => statusWord t == 0x00000081) = true := by
  decide

/-! ### One step of each command -/

/-- V-DSP-4, R122: SEED touches no flag. -/
theorem test_seed : answers (exec .seed (withOperands 42 0))
    (fun t => statusWord t == 0x00000010 && t.gen.counter == 42 && t.gen.cursor == 256 && t.dctl.mode == .undetermined) = true := by
  decide

/-- V-GEN-7: five bytes from a seed of 0. -/
theorem test_generate : answers (exec .generate (seeded 0 0x1000 5))
    (fun t => t.gen.cursor == 5 && t.gen.counter == 4 && t.written.read 0x1000 == some 0x9A &&
      t.written.read 0x1004 == some 0xAB && t.written.read 0x1005 == none) = true := by decide +kernel

/-- V-GEN-4: `(5, 252)` takes one refill and ends at cursor 1. -/
theorem test_generate_refill : answers (exec .generate { inBuffer 5 with a1 := 252 })
    (fun t => t.gen.cursor == 1 && t.gen.counter == 8) = true := by decide +kernel

/-- V-GEN-7: the cursor 5 is rounded up to 8. -/
theorem test_nextU32_aligns : answers (exec .nextU32 (inBuffer 5))
    (fun t => t.r0 == 0x94D1A70B && t.gen.cursor == 12) = true := by decide +kernel

/-- V-GEN-8: the cursor 253 is rounded up to 256, and the buffer refilled. -/
theorem test_nextU32_refills : answers (exec .nextU32 (inBuffer 253))
    (fun t => t.r0 == 0xFAD19885 && t.gen.cursor == 4 && t.gen.counter == 8) = true := by decide +kernel

/-- V-GEN-9. -/
theorem test_nextF64 : answers (exec .nextF64 (seeded 0 0 0))
    (fun t => t.r0 == 0x3FD6FDA5E685E2BA && t.gen.cursor == 8) = true := by decide +kernel

/-- V-GEN-10: the greatest value of NEXT_F64 and the least one above zero. -/
theorem test_nextF64_range : bitsOf (f64OfFraction53 (fraction53 0xFFFFFFFF 0xFFFFFFFF)) = 0x3FEFFFFFFFFFFFFF ∧
    bitsOf (f64OfFraction53 (fraction53 0 0x800)) = 0x3CA0000000000000 ∧
    bitsOf (f64OfFraction53 (fraction53 0 0x7FF)) = 0 := by decide +kernel

/-- V-MIX-10. -/
theorem test_mix : answers (exec .mix (withOperands 0 0x2000))
    (fun t => t.written.read 0x2000 == some 0x9A && t.written.read 0x2003 == some 0x5B && t.written.read 0x203F == some 0x39 &&
      t.written.read 0x2040 == none && statusWord t == 0) = true := by decide +kernel

/-- V-MIX-11: addresses wrap. -/
theorem test_mix_wraps : answers (exec .mix (withOperands 0xFFFFFFFFFFFFFFFF 0xFFFFFFFFFFFFFFE0))
    (fun t => t.written.read 0xFFFFFFFFFFFFFFE0 == some 0xAA && t.written.read 0xFFFFFFFFFFFFFFFF == some 0x7B &&
      t.written.read 0 == some 0xBD && t.written.read 0x1F == some 0xDD) = true := by decide +kernel

/-- V-ZIPF-11: `alpha = 1.0` gives the context of V-ZIPF-1. -/
theorem test_zipfInitAlpha : answers (exec .zipfInitAlpha (withOperands 10 0x3FF0000000000000))
    (fun t => t.zipf.valid && bitsOf t.zipf.zetan == 0x4024000000000000 && bitsOf t.zipf.theta == 0 &&
      statusWord t == 0x00000020) = true := by decide +kernel

/-- V-ZIPF-10: `alpha = 0.5` and an infinite `alpha`. -/
theorem test_zipfInitAlpha_domain :
    answers (exec .zipfInitAlpha (withOperands 10 0x3FE0000000000000)) (fun t => statusWord t == 0x00000083) = true ∧
    answers (exec .zipfInitAlpha (withOperands 10 0x7FF0000000000000)) (fun t => statusWord t == 0x00000083) = true := by
  decide +kernel

/-- V-ZIPF-1. -/
theorem test_zipfInitTheta : answers (exec .zipfInitTheta (withOperands 10 0))
    (fun t => t.zipf.valid && bitsOf t.zipf.alphaExp == 0x3FF0000000000000 && bitsOf t.zipf.zetan == 0x4024000000000000 &&
      bitsOf t.zipf.zeta2 == 0x4000000000000000 && bitsOf t.zipf.eta == 0x3FF0000000000000) = true := by decide +kernel

/-- V-ZIPF-10: `n = 0`, `theta = 1.0` and a NaN. -/
theorem test_zipfInitTheta_domain :
    answers (exec .zipfInitTheta (withOperands 0 0x3FE0000000000000)) (fun t => statusWord t == 0x00000083) = true ∧
    answers (exec .zipfInitTheta (withOperands 10 0x3FF0000000000000)) (fun t => statusWord t == 0x00000083) = true ∧
    answers (exec .zipfInitTheta (withOperands 10 0x7FF8000000000000)) (fun t => statusWord t == 0x00000083) = true := by
  decide +kernel

/-- V-ZIPF-12: the first draw of the uniform context of ten ranks. -/
theorem test_zipfDraw : answers (exec .zipfDraw (uniform 10)) (fun t => t.r0 == 4 && t.gen.cursor == 8) = true := by decide +kernel

/-- V-ZIPF-13: without a Zipf context the generator is not advanced. -/
theorem test_zipfDraw_notInitialised : answers (exec .zipfDraw (seeded 0 0 0))
    (fun t => statusWord t == 0x00000092 && t.gen.cursor == 256) = true := by decide +kernel

/-- V-SCR-3: the subkeys of the key `0123456789ABCDEF` before the encryptions. -/
theorem test_rekey_keyed : (keyedTables config 0x0123456789ABCDEF).p.toList.take 3 = [0x251C2FEF, 0x0C08C53C, 0x123ACF49] := by
  decide +kernel

/-- V-SCR-3 with 521 encryptions left out: REKEY sets the valid bit alone of `STATUS`. -/
theorem test_rekey_status : answers (exec .rekey (withOperands 1 0)) (fun t => statusWord t == 0x00000040) = true := by decide

/-- The encryption of zero over the initial table (R173). -/
theorem test_scramble : answers (exec .scramble (keyed 0)) (fun t => t.r0 == 0x706D9FCC1792D23A) = true := by decide +kernel

/-- V-SCR-6. -/
theorem test_scramble_notInitialised : answers (exec .scramble State.reset) (fun t => statusWord t == 0x00000082) = true := by
  decide

/-- A platform with the accelerated path. -/
def accelerated : Config := configOn true (fun _ => false)

/-- V-DSP-2: where the path is present. -/
theorem test_disableAccel :
    answers (execWith accelerated .disableAccel { State.reset with dctl := { mode := .accelerated, disabled := false } })
      (fun t => dctlWord accelerated t.dctl == 0x0000000D) = true := by decide

/-- V-DSP-3: where the path is present. -/
theorem test_maybeEnableAccel :
    answers (execWith accelerated .maybeEnableAccel State.reset)
      (fun t => dctlWord accelerated t.dctl == 0x0000000A) = true ∧
    answers (execWith accelerated .maybeEnableAccel { State.reset with dctl := { mode := .portable, disabled := true } })
      (fun t => dctlWord accelerated t.dctl == 0x0000000D) = true := by decide

/-! ### Witnesses: for each obligation with hypotheses, values that meet them -/

/-- The model's own platform takes every span. -/
theorem accepted (a : Word64) (n : Nat) : spanAccepted config a n := fun _ _ => rfl

/-- A seeded generator stands at position 0. -/
theorem atStream_seeded (c a b : Word64) : AtStream (seeded c a b).gen c 0 :=
  ⟨rfl, 0, (BitVec.add_zero c).symm, rfl, fun h => absurd h (Nat.lt_irrefl 256)⟩

/-- OtherWordsAreIllegal, third clause: words next to the encodings. -/
theorem witness_OtherWordsAreIllegal : ∀ i : Instr, (0x00000000 : Word32) ≠ encode i ∧ (0x00000006 : Word32) ≠ encode i ∧
    (0x00000013 : Word32) ≠ encode i ∧ (0x00000101 : Word32) ≠ encode i ∧ (0xFFFFFFFF : Word32) ≠ encode i := by
  intro i
  cases i <;> decide

/-- StepRunsDecodedCommand, both clauses. -/
theorem witness_StepRunsDecodedCommand :
    (waiting [.wr32 .cmd 0x00000031]).inputs = .wr32 .cmd 0x00000031 :: [] ∧ decode 0x00000031 = .ok .maybeEnableAccel ∧
    decodeTableWord 32 0x00000001 = some .seed := by decide

/-- HostWrites, each clause. -/
theorem witness_HostWrites : (waiting [.wr64 .a0 0]).inputs = .wr64 .a0 0 :: [] ∧
    (waiting [.wr64 .a1 0xFFFFFFFFFFFFFFFF]).inputs = .wr64 .a1 0xFFFFFFFFFFFFFFFF :: [] ∧
    (waiting [.wr64 .r0 1]).inputs = .wr64 .r0 1 :: [] ∧ (waiting [.wr32 .status 1]).inputs = .wr32 .status 1 :: [] ∧
    (waiting [.wr32 .dctl 1]).inputs = .wr32 .dctl 1 :: [] := by decide

/-- HostReads, each clause. -/
theorem witness_HostReads : (waiting [.rd (.r64 .a0)]).inputs = .rd (.r64 .a0) :: [] ∧
    (waiting [.rd (.r64 .a1)]).inputs = .rd (.r64 .a1) :: [] ∧ (waiting [.rd (.r64 .r0)]).inputs = .rd (.r64 .r0) :: [] ∧
    (waiting [.rd (.r32 .status)]).inputs = .rd (.r32 .status) :: [] ∧
    (waiting [.rd (.r32 .dctl)]).inputs = .rd (.r32 .dctl) :: [] ∧
    (waiting [.rd (.r32 .cmd)]).inputs = .rd (.r32 .cmd) :: [] := by decide

/-- ResetValues and ResetAndWaitFrame, each clause. -/
theorem witness_ResetValues : (waiting [.reset]).inputs = .reset :: [] ∧ (waiting []).inputs = [] := by decide

/-- TransactionsRunCommand, for a command of two operands, of one and of none. -/
theorem witness_TransactionsRunCommand :
    (waiting [.wr64 .a0 1, .wr64 .a1 2, .wr32 .cmd 0x00000005]).inputs = transactionsOf .mix 1 2 ++ [] ∧
    (waiting [.wr64 .a0 1, .wr32 .cmd 0x00000001]).inputs = transactionsOf .seed 1 2 ++ [] ∧
    (waiting [.wr32 .cmd 0x00000003]).inputs = transactionsOf .nextU32 1 2 ++ [] := by decide

/-- GenerateCompletes and GenerateContinuity, also for a length of zero, a length past one buffer and a span that wraps. -/
theorem witness_GenerateCompletes : (seeded 0 0x1000 0).gen.valid = true ∧ spanAccepted config 0x1000 0 ∧
    spanAccepted config 0 257 ∧ spanAccepted config 0xFFFFFFFFFFFFFFFF 5 ∧ (3 : Nat) + 305 < 2 ^ 64 :=
  ⟨rfl, accepted _ _, accepted _ _, accepted _ _, by decide⟩

/-- GenerateCompletes, on a platform that refuses what lies next to the span. -/
theorem witness_GenerateCompletes_refusing : spanAccepted (refusing 0x1008 1) 0x1000 8 := by unfold spanAccepted; decide

/-- GenerateWritesStream and NextU32Stream. -/
theorem witness_GenerateWritesStream : AtStream (seeded 7 0x1000 308).gen 7 0 ∧
    spanAccepted (configOn true (fun _ => false)) (seeded 7 0x1000 308).a0 308 := ⟨atStream_seeded _ _ _, fun _ _ => rfl⟩

/-- RefusedWriteStops, first clause: the first address and the last one of the span. -/
theorem witness_RefusedWriteStops_generate :
    (seeded 0 0x1000 8).gen.valid = true ∧ 0 < (seeded 0 0x1000 8).a1.toNat ∧ 7 < (seeded 0 0x1000 8).a1.toNat ∧
    firstRefused (refusing 0x1000 1) (seeded 0 0x1000 8).a0 0 ∧
    firstRefused (refusing 0x1007 1) (seeded 0 0x1000 8).a0 7 :=
  ⟨by decide, by decide, by decide, ⟨by unfold spanAccepted; decide, by decide⟩, ⟨by unfold spanAccepted; decide, by decide⟩⟩

/-- RefusedWriteStops, second clause: the first address and the last one of the block. -/
theorem witness_RefusedWriteStops_mix : firstRefused (refusing 0x2000 64) (withOperands 0 0x2000).a1 0 ∧
    firstRefused (refusing 0x203F 1) (withOperands 0 0x2000).a1 63 :=
  ⟨⟨by unfold spanAccepted; decide, by decide⟩, ⟨by unfold spanAccepted; decide, by decide⟩⟩

/-- R58: the two stops themselves. -/
theorem test_refused : stopsAt (execWith (refusing 0x1001 1) .generate (seeded 0 0x1000 8)) 0x1001 = true ∧
    stopsAt (execWith (refusing 0x203F 1) .mix (withOperands 0 0x2000)) 0x203F = true := by decide +kernel

/-- NextU32InBuffer, at both ends of its range. -/
theorem witness_NextU32InBuffer : ((inBuffer 0).gen.cursor.val ≤ 252 ∧ (inBuffer 0).gen.valid = true) ∧
    ((inBuffer 252).gen.cursor.val ≤ 252 ∧ (inBuffer 252).gen.valid = true) := by decide

/-- NextU32Refills, at both ends of its range. -/
theorem witness_NextU32Refills : (252 < (inBuffer 253).gen.cursor.val ∧ (inBuffer 253).gen.valid = true) ∧
    (252 < (inBuffer 256).gen.cursor.val ∧ (inBuffer 256).gen.valid = true) := by decide

/-- NextF64Draws and NextF64Range. -/
theorem witness_NextF64Draws : (seeded 0 0 0).gen.valid = true := rfl

/-- RefillLayout and StreamsRecur, at the ends of their ranges. -/
theorem witness_RefillLayout : ((63 : Nat) < 64 ∧ (3 : Nat) < 4) ∧ ((15 : Nat) < 16 ∧ (2 : Nat) < 3 ∧ (3 : Nat) < 4) := by decide

/-- MixResult. -/
theorem witness_MixResult : spanAccepted config (withOperands 0 0xFFFFFFFFFFFFFFE0).a1 64 := accepted _ _

/-- ModelPlatform, the clause on GENERATE. -/
theorem witness_ModelPlatform : (seeded 0 0x1000 8).gen.valid = true := rfl

/-- LazyProbe, the two clauses with a hypothesis. -/
theorem witness_LazyProbe : ({ mode := .portable, disabled := true } : Dctl).mode ≠ .undetermined ∧
    State.reset.dctl.mode = .undetermined := by decide

/-- BitsRoundTrip, second clause: a zero and an infinity. -/
theorem witness_BitsRoundTrip : f64OfBits 0x8000000000000000 ≠ .nan ∧ f64OfBits 0x7FF0000000000000 ≠ .nan := by decide

/-- RoundsToNearest, each clause. -/
theorem witness_RoundsToNearest : scaledInt false 1023 0 + scaledInt true 1024 0 ≠ 0 ∧ scaled 0 1 ≠ 0 ∧
    2 ^ 64 - 1 < 2 ^ 64 := by decide +kernel

/-- Pow64Properties, fourth clause: the least positive base. -/
theorem witness_Pow64Properties : isFinite (.fin false 0 1) = true ∧ flt F64.zero (.fin false 0 1) = true ∧
    isFinite F64.two = true := by decide +kernel

/-- ZipfInitThetaResult, ThetaPatterns: `theta` from `+0.0` to just below `1.0`, and `-0.0`. -/
theorem witness_ZipfInitThetaResult : (withOperands 1 0).a0 ≠ 0 ∧ thetaOk (f64OfBits (withOperands 1 0).a1) = true ∧
    thetaOk (f64OfBits 0x3FEFFFFFFFFFFFFF) = true ∧ thetaOk (f64OfBits 0x8000000000000000) = true := by decide +kernel

/-- ZipfDomainError, each clause and each way into it. -/
theorem witness_ZipfDomainError : (withOperands 0 0).a0 = 0 ∧ thetaOk (f64OfBits 0x3FF0000000000000) = false ∧
    thetaOk (f64OfBits 0x8000000000000001) = false ∧
    thetaOk (fsub F64.one (fdiv F64.one (f64OfBits 0x3FEFFFFFFFFFFFFF))) = false ∧
    thetaOk (fsub F64.one (fdiv F64.one (f64OfBits 0x4350000000000000))) = false := by decide +kernel

/-- ZipfInitAlphaRoute: `alpha = 1.0` and the greatest accepted one. -/
theorem witness_ZipfInitAlphaRoute : (withOperands 10 0).a0 ≠ 0 ∧
    thetaOk (fsub F64.one (fdiv F64.one (f64OfBits 0x3FF0000000000000))) = true ∧
    thetaOk (fsub F64.one (fdiv F64.one (f64OfBits 0x434FFFFFFFFFFFFF))) = true := by decide +kernel

/-- UniformContext: the least and the greatest population, both zeros, and the least population with `eta = 1.0`. -/
theorem witness_UniformContext :
    ((withOperands 1 0).a0 ≠ 0 ∧ (withOperands 1 0).a0.toNat ≤ 2 ^ 53 ∧ (withOperands 1 0).a1 = 0) ∧
    ((withOperands 0x20000000000000 0x8000000000000000).a0 ≠ 0 ∧
      (withOperands 0x20000000000000 0x8000000000000000).a0.toNat ≤ 2 ^ 53 ∧
      (withOperands 0x20000000000000 0x8000000000000000).a1 = 0x8000000000000000) ∧
    3 ≤ (withOperands 3 0).a0.toNat := by decide

/-- ZipfDrawResult. -/
theorem witness_ZipfDrawResult : (uniform 10).gen.valid = true ∧ (uniform 10).zipf.valid = true := by decide

/-- A context for RankFormula whose closed form needs no power but the first. -/
def linear (n : Word64) (zetan eta : F64) : Zipf :=
  { valid := true, n := n, theta := F64.zero, alphaExp := F64.one, zetan := zetan, zeta2 := F64.two, eta := eta }

/-- RankFormula, the two fast paths: just below each threshold. -/
theorem witness_RankFormula_fast :
    flt (fmul (f64OfBits 0x3FEFFFFFFFFFFFFF) (linear 10 F64.one F64.one).zetan) F64.one = true ∧
    flt (fmul F64.one (linear 10 F64.one F64.one).zetan) F64.one = false ∧
    flt (fmul F64.one (linear 10 F64.one F64.one).zetan) F64.two = true ∧
    flt (fmul F64.two (linear 10 F64.one F64.one).zetan) F64.two = false := by decide +kernel

/-- RankFormula, the closed form: `v` for `n = 10` at `base = 1.0`, `0.5` and `-1.0`, so each of its three cases. -/
theorem witness_RankFormula_closed :
    fge (fmul (f64OfU64 10) (config.pow64 F64.one F64.one)) (f64OfU64 10) = true ∧
    fmul (f64OfU64 10) (config.pow64 (f64OfBits 0x3FE0000000000000) F64.one) = f64OfU64 5 ∧
    fge (f64OfU64 5) (f64OfU64 10) = false ∧ fge (f64OfU64 5) F64.zero = true ∧
    fge (fmul (f64OfU64 10) (config.pow64 (f64OfBits 0xBFF0000000000000) F64.one)) (f64OfU64 10) = false ∧
    fge (fmul (f64OfU64 10) (config.pow64 (f64OfBits 0xBFF0000000000000) F64.one)) F64.zero = false := by decide +kernel

/-- DrawRankRange. -/
theorem witness_DrawRankRange : (uniform 10).Inv config ∧ (uniform 10).gen.valid = true ∧ (uniform 10).zipf.valid = true :=
  ⟨⟨⟨List.Pairwise.nil, fun c hc => absurd hc (by simp [uniform, seeded, withOperands, State.reset])⟩, fun h => absurd rfl h,
    fun h => absurd h (by decide), fun h => absurd h (by decide), fun _ h => absurd h (Nat.lt_irrefl 256),
    fun _ => ⟨by decide, by decide +kernel, rfl⟩, fun h => absurd h (by decide)⟩, by decide, by decide⟩

/-- ScheduleIsChained, the first and the last output. -/
theorem witness_ScheduleIsChained : (0 : Nat) < 521 ∧ (520 : Nat) < 521 := by decide

/-- ScrambleResult, both clauses. -/
theorem witness_ScrambleResult : (keyed 0).key.valid = true ∧ State.reset.key.valid = false := by decide

/-- EncryptIsBijection. -/
theorem witness_EncryptIsBijection : config.roundForm = classicalRounds := rfl

/-- NotInitialised, each clause. -/
theorem witness_NotInitialised : State.reset.gen.valid = false ∧ (seeded 0 0 0).zipf.valid = false ∧
    State.reset.key.valid = false := by decide

/-- OutcomeReported, GeneralRegisterWriters, ContextWriters: a command that ends OK. -/
theorem witness_OutcomeReported : execWith config .disableAccel State.reset = .next { State.reset with
    dctl := { disabled := true, mode := .portable } } := rfl

/-- ErrorsArePrecise: NOT_INITIALISED and DOMAIN_ERROR. -/
theorem witness_ErrorsArePrecise :
    answers (execWith config .scramble State.reset) (fun t => t.err == some .notInitialised) = true ∧
    answers (execWith config .zipfInitTheta (withOperands 0 0)) (fun t => t.err == some .domainError) = true := by decide

/-- UnreadState, the first two clauses. -/
theorem witness_UnreadState : readsA0 .nextU32 = false ∧ readsA1 .scramble = false := by decide

/-- OnlyResetClears: a step that is not RESET, from a state with every bit set, also one that ends in DOMAIN_ERROR. -/
theorem witness_OnlyResetClears :
    answers (stepWith config { uniform 10 with
      a0 := 0, inputs := [.wr32 .cmd 0x00000011], key := { valid := true, tables := initTable }, errSticky := true,
      dctl := { mode := .portable, disabled := true } })
      (fun t => t.gen.valid && t.key.valid && t.errSticky && t.dctl.disabled && !t.zipf.valid) = true := by decide

/-- InvariantKept, both clauses: reset with a command waiting. -/
theorem witness_InvariantKept : (waiting [.wr32 .cmd 0x00000001]).Inv config ∧
    answers (stepWith config (waiting [.wr32 .cmd 0x00000001])) (fun t => t.gen.valid) = true ∧
    answers (step (waiting [.wr32 .cmd 0x00000001])) (fun t => t.gen.valid) = true :=
  ⟨⟨⟨List.Pairwise.nil, fun c hc => absurd hc (by simp [waiting, State.reset])⟩, fun h => absurd rfl h, fun h => absurd h (by decide),
    fun h => absurd h (by decide), fun h => absurd h (by decide), fun h => absurd h (by decide), fun h => absurd h (by decide)⟩,
    by decide, by decide⟩

end Sys2Proof.Tests
end

section
/-! SUPPORT. Binary64 data as bit patterns, the operations on finite data, and the platform of `config`: the statements
BitsRoundTrip, RoundsToNearest and ModelPlatform (00_scope.md R13, R16; 20_memory.md R58; 42_zipf.md R140). -/

namespace Sys2Proof.Machine

/-! ### Bit patterns (R16) -/

/-- A pattern whose exponent bits are not all set is read field by field. -/
theorem f64OfBits_of_lt {w : Word64} (h : (w.extractLsb' 52 11).toNat < 2047) :
    f64OfBits w = .fin (w.getLsbD 63) ⟨(w.extractLsb' 52 11).toNat, h⟩ (w.extractLsb' 0 52) :=
  dif_pos h

/-- A pattern with all exponent bits set is an infinity or a NaN, by its fraction. -/
theorem f64OfBits_of_allOnes {w : Word64} (h : w.extractLsb' 52 11 = 2047) :
    f64OfBits w = if w.extractLsb' 0 52 = 0 then .inf (w.getLsbD 63) else .nan :=
  dif_neg (by rw [h]; decide)

/-- The exponent bits are all set, or the exponent is that of a finite datum. -/
theorem exponent_cases (w : Word64) : w.extractLsb' 52 11 = 2047 ∨ (w.extractLsb' 52 11).toNat < 2047 := by
  bv_omega

/-- Which patterns are NaNs. -/
theorem f64OfBits_eq_nan (w : Word64) :
    f64OfBits w = .nan ↔ w.extractLsb' 52 11 = 2047 ∧ w.extractLsb' 0 52 ≠ 0 := by
  rcases exponent_cases w with he | he
  · simp [f64OfBits_of_allOnes he, he]
  · rw [f64OfBits_of_lt he]
    exact iff_of_false nofun fun ⟨hexp, _⟩ => absurd he (by rw [hexp]; decide)

/-- The pattern written for a NaN is one, whatever its payload: the mask sets all exponent bits and the quiet bit. -/
theorem f64OfBits_bitsOf_nan : f64OfBits (bitsOf .nan) = .nan := by
  refine (f64OfBits_eq_nan _).mpr ⟨?_, fun hf => ?_⟩
  · rw [bitsOf, BitVec.extractLsb'_or]
    exact BitVec.or_allOnes
  · have hquiet : (bitsOf .nan).getLsbD 51 = true := by
      rw [bitsOf, BitVec.getLsbD_or]
      exact Bool.or_true _
    have hbit := congrArg (fun f : BitVec 52 => f.getLsbD 51) hf
    rw [BitVec.getLsbD_extractLsb'] at hbit
    exact absurd (hquiet.symm.trans hbit) (by decide)

/-- Reading back the pattern of an infinity. -/
theorem f64OfBits_bitsOf_inf (neg : Bool) : f64OfBits (bitsOf (.inf neg)) = .inf neg := by
  obtain ⟨hneg, hexp, hfrac⟩ := fields_of_pattern neg 2047 0 (bitsOf (.inf neg)) rfl
  rw [f64OfBits_of_allOnes hexp, hneg, if_pos hfrac]

/-- Writing back the datum of a pattern that is no NaN. -/
theorem bitsOf_f64OfBits {w : Word64} (h : f64OfBits w ≠ .nan) : bitsOf (f64OfBits w) = w := by
  have hw := pattern_of_fields w
  rcases exponent_cases w with he | he
  · have hf : w.extractLsb' 0 52 = 0 := by
      by_contra hf
      exact h ((f64OfBits_eq_nan w).mpr ⟨he, hf⟩)
    rw [f64OfBits_of_allOnes he, if_pos hf, bitsOf]
    rw [he, hf] at hw
    exact hw.symm
  · rw [f64OfBits_of_lt he, bitsOf, BitVec.ofNat_toNat, BitVec.setWidth_eq]
    exact hw.symm

/-- Settles O30: the three kinds of datum are read back one by one, and the other two clauses are lemmas on patterns. -/
theorem bitsRoundTrip : Obligations.BitsRoundTrip := by
  refine ⟨fun d => ?_, fun w => bitsOf_f64OfBits, f64OfBits_eq_nan⟩
  cases d with
  | nan => exact f64OfBits_bitsOf_nan
  | inf neg => exact f64OfBits_bitsOf_inf neg
  | fin neg e f => exact f64OfBits_fin neg e f

/-! ### The operations on finite data (R16, R140) -/

/-- The unit, as the statement writes it. -/
theorem two_pow_unitExp : 2 ^ unitExp = 2 ^ 1074 := by rw [unitExp]

/-- `fadd` on finite operands whose exact sum is not zero rounds that sum. -/
theorem fadd_fin {n n' : Bool} {e e' : Fin 2047} {f f' : BitVec 52} (h : scaledInt n e f + scaledInt n' e' f' ≠ 0) :
    fadd (.fin n e f) (.fin n' e' f') =
      roundScaled (decide (scaledInt n e f + scaledInt n' e' f' < 0)) (scaledInt n e f + scaledInt n' e' f').natAbs 1 :=
  if_neg h

/-- `fmul` on finite operands rounds the exact product. -/
theorem fmul_fin (n n' : Bool) (e e' : Fin 2047) (f f' : BitVec 52) :
    fmul (.fin n e f) (.fin n' e' f') = roundScaled (n != n') (scaled e f * scaled e' f') (2 ^ 1074) := by
  rw [← two_pow_unitExp, fmul]

/-- `fdiv` on finite operands with a divisor that is not zero rounds the exact quotient. -/
theorem fdiv_fin {n n' : Bool} {e e' : Fin 2047} {f f' : BitVec 52} (h : scaled e' f' ≠ 0) :
    fdiv (.fin n e f) (.fin n' e' f') = roundScaled (n != n') (scaled e f * 2 ^ 1074) (scaled e' f') := by
  rw [← two_pow_unitExp, fdiv, if_neg h]

/-- `f64_of_u64` rounds the integer. -/
theorem f64OfU64_eq (k : Nat) : f64OfU64 k = roundScaled false (k * 2 ^ 1074) 1 := by
  rw [← two_pow_unitExp, f64OfU64]

/-- Settles O31: each operation is one rounding of its exact result, and a rounding gives the nearest datum. -/
theorem roundsToNearest : Obligations.RoundsToNearest := by
  refine ⟨fun n e f n' e' f' hsum => ?_, fun n e f n' e' f' => ?_, fun n e f n' e' f' hdiv => ?_, fun k _ => ?_⟩
  · rw [fadd_fin hsum]
    exact roundScaled_nearest _ _ 1 Nat.one_pos
  · rw [fmul_fin]
    exact roundScaled_nearest _ _ _ (by positivity)
  · rw [fdiv_fin hdiv]
    exact roundScaled_nearest _ _ _ (Nat.pos_of_ne_zero hdiv)
  · rw [f64OfU64_eq]
    exact roundScaled_nearest _ _ 1 Nat.one_pos

/-! ### The platform of `config` (R13, R58; log 6) -/

/-- The platform of `config` refuses no write. -/
theorem config_refuses (a : Word64) : config.hostMem.refuses a = false := rfl

/-- On `config` every span of bytes is written. -/
theorem writeBytes_config (m : Memory) (a : Word64) (bs : List Byte) : ∃ m', m.writeBytes config a bs = .ok m' :=
  Memory.writeBytes_of_accepted fun _ _ => config_refuses _

/-- MIX where the platform takes the bytes. -/
theorem mixWith_of_written {cfg : Config} {s : State} {m : Memory}
    (hm : s.written.writeBytes cfg s.a1 (mixBytes cfg s.a0) = .ok m) :
    mixWith cfg s = .next { s with err := none, dctl := touchDctl cfg s.dctl, written := m } := by
  rw [mixWith, intA1, intA0, hm]
  rfl

/-- Settles O52: `exec` and `step` are the parametric machine at `config`, and there every span of bytes is written. -/
theorem modelPlatform : Obligations.ModelPlatform := by
  refine ⟨fun i s => ?_, fun s => ?_, config_refuses, fun s hv => ?_, fun s => ?_⟩
  · rw [execWith_config]
  · rw [stepWith_config]
  · obtain ⟨m, hm⟩ := writeBytes_config s.written s.a0 (drawBytes config s.a1.toNat s).1
    rw [← execWith_config]
    exact ⟨m, _, _, generateWith_valid config s hv hm⟩
  · obtain ⟨m, hm⟩ := writeBytes_config s.written s.a1 (mixBytes config s.a0)
    rw [← execWith_config]
    exact ⟨m, mixWith_of_written hm⟩

end Sys2Proof.Machine
end

section
/-! SUPPORT. The host port and the words it reads: the statements StepRunsDecodedCommand, HostWrites, HostReads,
StatusWordFields, DctlWordFields and ResetValues (10_state.md R21, R22, R32, R33, R36, R38; 70_reset_and_hazards.md R230). -/

namespace Sys2Proof.Machine

/-! ### Transactions (R22, R38, R65) -/

/-- A write of a command's word to `CMD` runs the command. -/
theorem consume_command {cfg : Config} {run : Instr → State → Host.Outcome State Fault Refusal} {w : Word32} {i : Instr}
    {s : State} (h : decode w = .ok i) : consume cfg run (.wr32 .cmd w) s = run i s := by
  rw [consume, write32, writeCmd, h]

/-- What the decoder of table words reads is what the decoder reads of the command word. -/
theorem decode_commandWord {nbits w : Nat} {i : Instr} (h : decodeTableWord nbits w = some i) :
    decode (commandWord nbits w) = .ok i := by
  rw [decodeTableWord] at h
  cases hd : decode (commandWord nbits w) with
  | ok j => rw [hd] at h; exact congrArg Except.ok (Option.some.inj h)
  | error e => rw [hd] at h; cases h

/-- Settles O4: a step consumes its oldest input, and consuming a command's word runs the command; taking the word that
`withFetchWord` has placed leaves the state it was placed on. -/
theorem stepRunsDecodedCommand : Obligations.StepRunsDecodedCommand := by
  refine ⟨fun s w rest i hs hd => ?_, fun s nbits w i hd => ?_⟩
  · rw [step_of_inputs hs]
    exact consume_command hd
  · have hs : (s.withFetchWord nbits w).inputs = .wr32 .cmd (commandWord nbits w) :: s.inputs := rfl
    rw [step_of_inputs hs]
    exact consume_command (decode_commandWord hd)

/-- Settles O5: a step consumes its oldest input, and each of the five writes is one case of `consume`. -/
theorem hostWrites : Obligations.HostWrites :=
  fun _ _ => ⟨fun _ h => step_of_inputs h, fun _ h => step_of_inputs h, fun _ h => step_of_inputs h,
    fun _ h => step_of_inputs h, fun _ h => step_of_inputs h⟩

/-- Settles O6: a step consumes its oldest input, and each of the six reads is one case of `readReg`; the value of `CMD` is the
free value drawn. -/
theorem hostReads : Obligations.HostReads :=
  fun s _ => ⟨step_of_inputs, step_of_inputs, step_of_inputs, step_of_inputs, step_of_inputs,
    fun h => ⟨lo32 (drawFree s).1, s.freeCount + 1, step_of_inputs h⟩⟩

/-! ### Bit fields -/

/-- A bit above the lower part of a joined word is one of the upper part. -/
theorem getLsbD_append_of_le {v w i : Nat} {x : BitVec v} {y : BitVec w} (h : w ≤ i) :
    (x ++ y).getLsbD i = x.getLsbD (i - w) := by
  rw [BitVec.getLsbD_append, if_neg h.not_gt]

/-- The bit just above the lower part of a joined word, where a flag stands there. -/
theorem getLsbD_append_ofBool {v w : Nat} (x : BitVec v) (b : Bool) (y : BitVec w) :
    (x ++ BitVec.ofBool b ++ y).getLsbD w = b := by
  rw [getLsbD_append_of_le le_rfl, Nat.sub_self, BitVec.getLsbD_append, if_pos Nat.one_pos, BitVec.getLsbD_ofBool]
  rfl

/-! ### `STATUS` (R32, R211) -/

/-- Bits 3:0 of `STATUS`. -/
@[simp] theorem statusWord_err (s : State) : (statusWord s).extractLsb' 0 4 = errCode s.err :=
  BitVec.extractLsb'_append_eq_right

/-- Bit 4 of `STATUS`. -/
theorem statusWord_genValid (s : State) : (statusWord s).getLsbD 4 = s.gen.valid :=
  getLsbD_append_ofBool _ _ _

/-- Bit 5 of `STATUS`. -/
theorem statusWord_zipfValid (s : State) : (statusWord s).getLsbD 5 = s.zipf.valid := by
  rw [statusWord, getLsbD_append_of_le (by decide)]
  exact getLsbD_append_ofBool _ _ _

/-- Bit 6 of `STATUS`. -/
theorem statusWord_keyValid (s : State) : (statusWord s).getLsbD 6 = s.key.valid := by
  rw [statusWord, getLsbD_append_of_le (by decide), getLsbD_append_of_le (by decide)]
  exact getLsbD_append_ofBool _ _ _

/-- Bit 7 of `STATUS`. -/
theorem statusWord_errSticky (s : State) : (statusWord s).getLsbD 7 = s.errSticky := by
  rw [statusWord, getLsbD_append_of_le (by decide), getLsbD_append_of_le (by decide), getLsbD_append_of_le (by decide)]
  exact getLsbD_append_ofBool _ _ _

/-- Bits 31:8 of `STATUS` are reserved: the five fields below them are passed over one by one. -/
@[simp] theorem statusWord_reserved (s : State) : (statusWord s).extractLsb' 8 24 = 0 := by
  rw [statusWord]
  iterate 4 rw [BitVec.extractLsb'_append_eq_of_le (by decide)]
  exact BitVec.extractLsb'_append_eq_left

/-- Settles O7: one lemma per field; the outcome's code is that of `errCode`. -/
theorem statusWordFields : Obligations.StatusWordFields := by
  refine fun s => ⟨?_, statusWord_genValid s, statusWord_zipfValid s, statusWord_keyValid s, statusWord_errSticky s,
    statusWord_reserved s⟩
  rw [statusWord_err]
  rcases s.err with _ | (_ | _ | _) <;> rfl

/-! ### `DCTL` (R33) -/

/-- Bits 1:0 of `DCTL`. -/
@[simp] theorem dctlWord_mode (cfg : Config) (d : Dctl) : (dctlWord cfg d).extractLsb' 0 2 = modeCode d.mode :=
  BitVec.extractLsb'_append_eq_right

/-- Bit 2 of `DCTL`. -/
theorem dctlWord_disabled (cfg : Config) (d : Dctl) : (dctlWord cfg d).getLsbD 2 = d.disabled :=
  getLsbD_append_ofBool _ _ _

/-- Bit 3 of `DCTL`. -/
theorem dctlWord_present (cfg : Config) (d : Dctl) : (dctlWord cfg d).getLsbD 3 = cfg.hwAccelPresent := by
  rw [dctlWord, getLsbD_append_of_le (by decide)]
  exact getLsbD_append_ofBool _ _ _

/-- Bits 31:4 of `DCTL` are reserved. -/
@[simp] theorem dctlWord_reserved (cfg : Config) (d : Dctl) : (dctlWord cfg d).extractLsb' 4 28 = 0 := by
  rw [dctlWord]
  iterate 2 rw [BitVec.extractLsb'_append_eq_of_le (by decide)]
  exact BitVec.extractLsb'_append_eq_left

/-- Settles O8: one lemma per field; the mode's code is that of `modeCode`. -/
theorem dctlWordFields : Obligations.DctlWordFields := by
  refine fun cfg d => ⟨?_, dctlWord_disabled cfg d, dctlWord_present cfg d, dctlWord_reserved cfg d⟩
  rw [dctlWord_mode]
  cases d.mode <;> rfl

/-! ### Reset (R36, R230) -/

/-- `STATUS` after reset. -/
theorem statusWord_reset : statusWord State.reset = 0 := by decide

/-- `DCTL` after reset shows `PRESENT` alone. -/
theorem dctlWord_reset (cfg : Config) : dctlWord cfg State.reset.dctl = if cfg.hwAccelPresent then 8 else 0 := by
  rw [dctlWord]
  cases cfg.hwAccelPresent <;> rfl

/-- A step that takes RESET. -/
theorem stepWith_of_reset (cfg : Config) {s : State} {rest : List HostInput} (h : s.inputs = .reset :: rest) :
    stepWith cfg s = .next (pulseReset (setInputs rest s)) := stepWith_of_inputs cfg h

/-- Settles O9: RESET gives every field of the core the value it has in the power-on state. -/
theorem resetValues : Obligations.ResetValues := by
  refine ⟨⟨statusWord_reset, rfl, rfl, rfl, rfl, rfl, rfl, rfl, dctlWord_reset⟩, fun cfg s rest h => ?_⟩
  exact ⟨_, stepWith_of_reset cfg h, statusWord_reset, rfl, rfl, rfl, rfl, rfl, rfl, dctlWord_reset cfg⟩

end Sys2Proof.Machine
end

section
/-! SUPPORT. Which commands write what: the statements GeneralRegisterWriters and ContextWriters (10_state.md R22, R24, R27,
R29, R30, R31, R33; 20_memory.md R56; 45_dispatch.md R198). -/

namespace Sys2Proof.Machine

/-! ### Errors (R211, R214) -/

/-- Only the initialisers of the Zipf context end in DOMAIN_ERROR. -/
theorem zipfInit_of_domainError {cfg : Config} {i : Instr} {s : State} (h : errorOf cfg i s = some .domainError) :
    i ∈ [Instr.zipfInitAlpha, .zipfInitTheta] := by
  cases i <;> simp [errorOf] at h ⊢

/-- An error other than DOMAIN_ERROR leaves the Zipf context. -/
theorem raiseError_zipf_of_ne {e : CmdError} (h : e ≠ .domainError) (s : State) : (raiseError e s).zipf = s.zipf := by
  cases e with
  | illegalCommand => rfl
  | notInitialised => rfl
  | domainError => exact absurd rfl h

/-! ### Commands that end OK (R17) -/

/-- The commands with a result in `R0`. -/
theorem writesR0_iff (i : Instr) : writesR0 i = true ↔ i ∈ [Instr.nextU32, .nextF64, .zipfDraw, .scramble] := by
  cases i <;> decide

section
variable {cfg : Config} {i : Instr} {s : State} {r : Word64} {g : Gen} {d : Dctl} {z : Zipf} {k : Key} {m : Memory}

/-- The commands that write the dispatch flag: those that evaluate Mix, and the two of the flag itself. -/
theorem Changes.dctl_eq (h : Changes cfg i s r g d z k m)
    (hi : i ∉ [Instr.generate, .nextU32, .nextF64, .mix, .zipfDraw, .disableAccel, .maybeEnableAccel]) : d = s.dctl := by
  rcases h.dctl with hd | ⟨hmix, -⟩ | ⟨rfl, -⟩ | ⟨rfl, -⟩
  · exact hd
  · exact absurd (List.mem_append_left [Instr.disableAccel, .maybeEnableAccel] hmix) hi
  · exact absurd (by decide) hi
  · exact absurd (by decide) hi

/-- DISABLE_ACCEL alone writes `DISABLED`. -/
theorem Changes.disabled_eq (h : Changes cfg i s r g d z k m) (hi : i ≠ .disableAccel) : d.disabled = s.dctl.disabled := by
  rcases h.dctl with rfl | ⟨-, rfl⟩ | ⟨-, rfl⟩ | ⟨hdis, -⟩
  · rfl
  · exact touchDctl_disabled cfg s.dctl
  · rfl
  · exact absurd hdis hi

end

/-- Settles O55: an error leaves the three registers, and a command that ends OK writes `R0` only where it has a result. -/
theorem generalRegisterWriters : Obligations.GeneralRegisterWriters := by
  intro cfg i s t h
  obtain ⟨e, -, rfl⟩ | ⟨-, r, g, d, z, k, m, hc, rfl⟩ := execWith_next h
  · exact ⟨raiseError_a0 s e, raiseError_a1 s e, .inl (raiseError_r0 s e)⟩
  · exact ⟨rfl, rfl, hc.r0.imp_right fun hr => ⟨rfl, (writesR0_iff i).mp hr⟩⟩

/-- Settles O56: an error leaves all but the Zipf context, and that too unless an initialiser raises it; a command that ends OK
changes what `Changes` allows it to. -/
theorem contextWriters : Obligations.ContextWriters := by
  intro cfg i s t h
  obtain ⟨e, he, rfl⟩ | ⟨-, r, g, d, z, k, m, hc, rfl⟩ := execWith_next h
  · have hz (hi : i ∉ [Instr.zipfInitAlpha, .zipfInitTheta]) : (raiseError e s).zipf = s.zipf :=
      raiseError_zipf_of_ne (fun hdom => hi (zipfInit_of_domainError (hdom ▸ he))) s
    exact ⟨fun _ => raiseError_written s e, fun _ => raiseError_gen s e, hz, fun _ => raiseError_key s e,
      fun _ => raiseError_dctl s e, fun _ => congrArg Dctl.disabled (raiseError_dctl s e)⟩
  · exact ⟨fun hi => hc.written.resolve_right fun hw => hi hw.1, fun hi => hc.gen.resolve_right fun hg => hi hg.1,
      fun hi => hc.zipf.resolve_right fun hz => hi hz.1, fun hi => hc.key.resolve_right fun hk => hi hk.1, hc.dctl_eq,
      hc.disabled_eq⟩

end Sys2Proof.Machine
end

section
/-! SUPPORT. The invariant: the statements InvariantAtReset and InvariantKept (10_state.md R24, R29, R31, R32, R36;
45_dispatch.md R197, R198). -/

namespace Sys2Proof.Machine

/-! ### The dispatch flag (R197, R198) -/

/-- The invariant's two clauses on the dispatch flag: a disabled flag is portable, an accelerated one is on a platform with the
hardware. -/
def DctlOk (cfg : Config) (d : Dctl) : Prop :=
  (d.disabled = true → d.mode = .portable) ∧ (d.mode = .accelerated → cfg.hwAccelPresent = true)

/-- A probe's answer meets the clauses, whatever the flag was. -/
theorem dctlOk_probe (cfg : Config) (d : Dctl) : DctlOk cfg (probe cfg d) := by
  refine ⟨fun hdis => ?_, fun hacc => ?_⟩
  · have hdis : d.disabled = true := hdis
    simp [probe, hdis]
  · by_contra hp
    simp [probe, hp] at hacc

/-- A disabled, portable flag meets them. -/
theorem dctlOk_disabled (cfg : Config) : DctlOk cfg { mode := .portable, disabled := true } := ⟨fun _ => rfl, nofun⟩

/-- A touch keeps them: it probes, or leaves the flag. -/
theorem DctlOk.touch {cfg : Config} {d : Dctl} (h : DctlOk cfg d) : DctlOk cfg (touchDctl cfg d) := by
  by_cases hm : d.mode = .undetermined
  · rw [touchDctl, hm]
    exact dctlOk_probe cfg d
  · rwa [touchDctl_of_ne cfg hm]

/-! ### Each effect keeps the invariant -/

section
variable {cfg : Config} {s : State}

/-- RESET establishes the invariant but for the bytes written to HOST_MEM, which it leaves: every clause on the core asks
something only of a set bit, an error or a determined flag. -/
theorem inv_pulseReset (cfg : Config) (h : s.written.wf) : (pulseReset s).Inv cfg :=
  ⟨h, fun he => absurd rfl he, nofun, nofun, nofun, nofun, nofun⟩

/-- The invariant does not read the registers `A0`, `A1` and `R0`, the inputs, the replies or the draw count. -/
theorem State.Inv.withPort (h : s.Inv cfg) (a b r : Word64) (is : List HostInput) (rs : List (HostReg × Word64)) (n : Nat) :
    State.Inv cfg { s with a0 := a, a1 := b, r0 := r, inputs := is, replies := rs, freeCount := n } :=
  ⟨h.memory, h.sticky, h.disabled, h.accelerated, h.buffer, h.zipf, h.key⟩

/-- Taking an input keeps the invariant. -/
theorem State.Inv.setInputs (h : s.Inv cfg) (is : List HostInput) : (setInputs is s).Inv cfg :=
  h.withPort _ _ _ _ _ _

/-- A host write to a 64-bit register keeps the invariant. -/
theorem State.Inv.write64 (h : s.Inv cfg) (r : Reg64) (v : Word64) : (write64 r v s).Inv cfg := by
  cases r <;> exact h.withPort _ _ _ _ _ _

/-- A host read keeps the invariant. -/
theorem State.Inv.hostRead (h : s.Inv cfg) (r : HostReg) : (hostRead cfg r s).Inv cfg := by
  rcases r with (_ | _ | _) | (_ | _ | _) <;> exact h.withPort _ _ _ _ _ _

/-- An error keeps the invariant: it sets the sticky bit, and of the contexts it touches only the Zipf context, which it leaves
or clears. -/
theorem State.Inv.raiseError (h : s.Inv cfg) (e : CmdError) : (raiseError e s).Inv cfg := by
  cases e with
  | illegalCommand => exact ⟨h.memory, fun _ => rfl, h.disabled, h.accelerated, h.buffer, h.zipf, h.key⟩
  | notInitialised => exact ⟨h.memory, fun _ => rfl, h.disabled, h.accelerated, h.buffer, h.zipf, h.key⟩
  | domainError => exact ⟨h.memory, fun _ => rfl, h.disabled, h.accelerated, h.buffer, nofun, h.key⟩

variable {i : Instr} {r : Word64} {g : Gen} {d : Dctl} {z : Zipf} {k : Key} {m : Memory}

/-- What a command that ends OK leaves in the dispatch flag. -/
theorem Changes.dctlOk (hc : Changes cfg i s r g d z k m) (h : s.Inv cfg) : DctlOk cfg d := by
  have hs : DctlOk cfg s.dctl := ⟨h.disabled, h.accelerated⟩
  rcases hc.dctl with rfl | ⟨-, rfl⟩ | ⟨-, rfl⟩ | ⟨-, rfl⟩
  · exact hs
  · exact hs.touch
  · exact dctlOk_probe cfg s.dctl
  · exact dctlOk_disabled cfg

/-- A command that ends OK keeps the invariant: each context is the old one or what the command's rule writes. -/
theorem Changes.inv (hc : Changes cfg i s r g d z k m) (h : s.Inv cfg) :
    State.Inv cfg { s with err := none, r0 := r, gen := g, dctl := d, zipf := z, key := k, written := m } where
  memory := by
    rcases hc.written with rfl | ⟨-, hm⟩
    · exact h.memory
    · exact hm h.memory
  sticky := fun he => absurd rfl he
  disabled := (hc.dctlOk h).1
  accelerated := (hc.dctlOk h).2
  buffer := by
    rcases hc.gen with rfl | ⟨-, -, hb⟩
    · exact h.buffer
    · exact hb h.buffer
  zipf := by
    rcases hc.zipf with rfl | ⟨-, n, theta, hn, htheta, rfl⟩
    · exact h.zipf
    · exact fun _ => ⟨hn, htheta, rfl⟩
  key := by
    rcases hc.key with rfl | ⟨-, rfl⟩
    · exact h.key
    · exact fun _ => ⟨s.a0, rfl⟩

/-- A command keeps the invariant, however it ends. -/
theorem State.Inv.execWith {t : State} (h : s.Inv cfg) (he : execWith cfg i s = .next t) : t.Inv cfg := by
  obtain ⟨e, -, rfl⟩ | ⟨-, r, g, d, z, k, m, hc, rfl⟩ := execWith_next he
  · exact h.raiseError e
  · exact hc.inv h

/-- A step keeps the invariant. -/
theorem State.Inv.stepWith {t : State} (h : s.Inv cfg) (ht : stepWith cfg s = .next t) : t.Inv cfg := by
  obtain ⟨-, rfl⟩ | ⟨i, rest, -, hi⟩ := stepWith_cases ht
  · exact h
  have h' := h.setInputs rest
  obtain ⟨r, v, -, rfl⟩ | ⟨w, c, -, -, hc⟩ | ⟨w, e, -, -, rfl⟩ | ⟨r, w, -, -, rfl⟩ | ⟨r, -, rfl⟩ | ⟨-, rfl⟩ := hi
  · exact h'.write64 r v
  · exact h'.execWith hc
  · exact h'.raiseError .illegalCommand
  · exact h'
  · exact h'.hostRead r
  · exact inv_pulseReset cfg h'.memory

end

/-- Settles O60: the power-on state is what RESET makes of itself. -/
theorem invariantAtReset : Obligations.InvariantAtReset :=
  fun cfg => inv_pulseReset (s := State.reset) cfg Memory.reset_wf

/-- Settles O59: one lemma per effect of a step, and `step` is the step at `config`. -/
theorem invariantKept : Obligations.InvariantKept := by
  refine ⟨fun cfg s t h ht => h.stepWith ht, fun s t h ht => ?_⟩
  rw [← stepWith_config] at ht
  exact h.stepWith ht

end Sys2Proof.Machine
end

section
/-! SUPPORT. A destination that the platform refuses: the statement RefusedWriteStops (20_memory.md R58; log 6). -/

namespace Sys2Proof.Machine

/-- MIX writes 64 bytes (R108, R110). -/
@[simp] theorem mixBytes_length (cfg : Config) (c : Word64) : (mixBytes cfg c).length = 64 := by
  rw [mixBytes, List.length_map, List.length_range]

section
variable {cfg : Config} {s : State}

/-- Consecutive bytes that reach a first refused address stop there. -/
theorem Memory.writeBytes_of_firstRefused {m : Memory} {a : Word64} {bs : List Byte} {i : Nat} (hi : i < bs.length)
    (h : firstRefused cfg a i) : m.writeBytes cfg a bs = .error (a + BitVec.ofNat 64 i) :=
  Memory.writeBytes_of_refused hi h.1 h.2

/-- MIX where the platform refuses a byte. -/
theorem mixWith_refused {a : Word64} (hm : s.written.writeBytes cfg s.a1 (mixBytes cfg s.a0) = .error a) :
    mixWith cfg s = .fault (.hostMemRefused a) := by
  rw [mixWith, intA1, intA0, hm]

end

/-- Settles O16: GENERATE and MIX each write one list of bytes, as long as their destination, and that write stops at the first
refused address; what the bytes are does not matter. -/
theorem refusedWriteStops : Obligations.RefusedWriteStops := by
  refine ⟨fun cfg s i hv hi hr => ?_, fun cfg s i hi hr => ?_⟩
  · have hlen : i < (drawBytes cfg s.a1.toNat s).1.length := by rwa [drawBytes_length]
    exact generateWith_refused cfg s hv (Memory.writeBytes_of_firstRefused hlen hr)
  · have hlen : i < (mixBytes cfg s.a0).length := by rwa [mixBytes_length]
    exact mixWith_refused (Memory.writeBytes_of_firstRefused hlen hr)

end Sys2Proof.Machine
end

section
/-! SUPPORT. The words of commands and the transactions that write them: the statements LegalWordsDecodeExactly,
OtherWordsAreIllegal, SpecWordsDecode and TransactionsRunCommand (30_encoding.md R70, R72, R73, R77; 60_exceptions.md R212). -/

namespace Sys2Proof.Machine

/-! ### Words and commands (R70, R72) -/

/-- A word is a command's exactly where its two fields are. -/
theorem eq_encode_iff {w : Word32} {i : Instr} :
    w = encode i ↔ w.extractLsb' 8 24 = 0 ∧ w.extractLsb' 0 8 = opcOf i := by
  refine ⟨fun h => ?_, fun ⟨hzero, hopc⟩ => ?_⟩
  · rw [h]
    exact ⟨encode_zero_field i, encode_opc_field i⟩
  · rw [word_fields w, hzero, hopc, encode]

/-- What a word whose upper field is zero decodes to is decided by the opcode map, and no other word decodes. -/
theorem decode_eq_ok_iff_fields {w : Word32} {i : Instr} :
    decode w = .ok i ↔ w.extractLsb' 8 24 = 0 ∧ commandOfOpc (w.extractLsb' 0 8) = some i := by
  by_cases hzero : w.extractLsb' 8 24 = 0
  · have hfield : zeroFieldOk w = true := beq_iff_eq.mpr hzero
    cases hopc : commandOfOpc (w.extractLsb' 0 8) <;> simp [decode, hfield, hzero, hopc]
  · have hfield : zeroFieldOk w = false := beq_false_of_ne hzero
    exact iff_of_false (by simp [decode, hfield]) fun h => hzero h.1

/-- The decoder and the encoder are inverse, on every word. -/
theorem decode_eq_ok_iff {w : Word32} {i : Instr} : decode w = .ok i ↔ w = encode i := by
  rw [decode_eq_ok_iff_fields, commandOfOpc_eq_some, eq_encode_iff]

/-- A command decodes from its own word. -/
@[simp] theorem decode_encode (i : Instr) : decode (encode i) = .ok i := decode_eq_ok_iff.mpr rfl

/-- Every command is well formed (R79). -/
@[simp] theorem wellFormed_eq_true (i : Instr) : i.wellFormed = true := by cases i <;> rfl

/-- Settles O1: both directions are that the decoder and the encoder are inverse, and the table is evaluated. -/
theorem legalWordsDecodeExactly : Obligations.LegalWordsDecodeExactly :=
  ⟨fun _ _ => decode_eq_ok_iff, fun i => ⟨wellFormed_eq_true i, decode_encode i⟩, rfl⟩

/-- Settles O3: the five legal words are encodings; of the other two, one fails in the upper field and one in the opcode map. -/
theorem specWordsDecode : Obligations.SpecWordsDecode :=
  ⟨decode_encode .seed, decode_encode .mix, decode_encode .zipfInitTheta, decode_encode .scramble,
    decode_encode .maybeEnableAccel, rfl, rfl⟩

/-! ### Illegal words (R73, R212) -/

/-- A word is well formed exactly where its fields are: the upper one zero, the lower one in the table. -/
theorem wordWellFormed_iff_fields {w : Word32} :
    wordWellFormed w = true ↔ w.extractLsb' 8 24 = 0 ∧ w.extractLsb' 0 8 ∈ assignedOpcs := by
  rw [wordWellFormed, Bool.and_eq_true, zeroFieldOk, beq_iff_eq, opcOk, List.contains_iff_mem]

/-- The table holds the commands' operation codes and no other. -/
theorem mem_assignedOpcs_iff {o : BitVec 8} : o ∈ assignedOpcs ↔ ∃ i, o = opcOf i := by
  simp only [← List.contains_iff_mem, opcode_assigned, Option.isSome_iff_exists, commandOfOpc_eq_some]

/-- The well-formed words are the commands' words. -/
theorem wordWellFormed_iff_encode {w : Word32} : wordWellFormed w = true ↔ ∃ i, w = encode i := by
  simp only [wordWellFormed_iff_fields, mem_assignedOpcs_iff, eq_encode_iff, exists_and_left]

/-- The table by the numbers its codes stand for. -/
theorem mem_assignedOpcs_iff_toNat {o : BitVec 8} : o ∈ assignedOpcs ↔
    o.toNat ∈ [0x01, 0x02, 0x03, 0x04, 0x05, 0x10, 0x11, 0x12, 0x20, 0x21, 0x30, 0x31] :=
  (List.mem_map_of_injective (l := assignedOpcs) fun _ _ => BitVec.eq_of_toNat_eq).symm

/-- A write to `CMD` of a word that is no command's raises ILLEGAL_COMMAND, whatever the commands do. -/
theorem consume_illegal {cfg : Config} {run : Instr → State → Host.Outcome State Fault Refusal} {w : Word32} (s : State)
    (h : ∀ i, w ≠ encode i) : consume cfg run (.wr32 .cmd w) s = .next (raiseError .illegalCommand s) := by
  rw [consume, write32, writeCmd]
  cases hd : decode w with
  | ok i => exact absurd (decode_eq_ok_iff.mp hd) (h i)
  | error e => rfl

/-- Settles O2: the well-formed words are the commands' words, the table is read as numbers, and a word that is no command's
does not decode. -/
theorem otherWordsAreIllegal : Obligations.OtherWordsAreIllegal := by
  refine ⟨fun w => ?_, fun w => ?_, fun cfg run w s h => consume_illegal s h⟩
  · rw [← Bool.not_eq_true, wordWellFormed_iff_encode, not_exists]
  · rw [wordWellFormed_iff_fields, mem_assignedOpcs_iff_toNat]

/-! ### The transactions of a command (R77) -/

/-- The write of an operand, where the command has it. -/
def operandWrite (reads : Bool) (r : Reg64) (v : Word64) : List HostInput := if reads then [.wr64 r v] else []

/-- The state after it, with the inputs that are left. -/
def afterOperandWrite (reads : Bool) (r : Reg64) (v : Word64) (rest : List HostInput) (s : State) : State :=
  if reads then write64 r v (setInputs rest s) else setInputs rest s

/-- The transactions of a command are the writes of its operands and the write of its word. -/
theorem transactionsOf_eq (i : Instr) (a b : Word64) : transactionsOf i a b =
    operandWrite (readsA0 i) .a0 a ++ (operandWrite (readsA1 i) .a1 b ++ [.wr32 .cmd (encode i)]) :=
  List.append_assoc _ _ _

/-- The write of `A0` field by field. -/
theorem afterOperandWrite_a0 (reads : Bool) (v : Word64) (rest : List HostInput) (s : State) :
    afterOperandWrite reads .a0 v rest s = { s with inputs := rest, a0 := if reads then v else s.a0 } := by
  cases reads <;> rfl

/-- The write of `A1` field by field. -/
theorem afterOperandWrite_a1 (reads : Bool) (v : Word64) (rest : List HostInput) (s : State) :
    afterOperandWrite reads .a1 v rest s = { s with inputs := rest, a1 := if reads then v else s.a1 } := by
  cases reads <;> rfl

/-- A run goes on after the write of an operand, or at once where there is none. -/
theorem run_of_operandWrite {reads : Bool} {r : Reg64} {v : Word64} {rest : List HostInput} {s : State} (n : Nat)
    (h : s.inputs = operandWrite reads r v ++ rest) :
    Host.Core.run core ((operandWrite reads r v).length + n) s =
      Host.Core.run core n (afterOperandWrite reads r v rest s) := by
  cases reads with
  | false =>
    have hs : setInputs rest s = s := by rw [← show s.inputs = rest from h]; rfl
    rw [show afterOperandWrite false r v rest s = setInputs rest s from rfl, hs]
    exact congrArg (Host.Core.run core · s) (Nat.zero_add n)
  | true =>
    rw [show (operandWrite true r v).length = 1 from rfl, Nat.add_comm]
    exact run_of_wr64 n h

/-- A run of the write of a command's word is the command. -/
theorem run_of_command {i : Instr} {rest : List HostInput} {s : State}
    (h : s.inputs = .wr32 .cmd (encode i) :: rest) : Host.Core.run core 1 s = exec i (setInputs rest s) := by
  rw [run_one, step_of_inputs h, consume_command (decode_encode i)]

/-- Settles O11: the writes of the operands are run one after another, then the write of the word. -/
theorem transactionsRunCommand : Obligations.TransactionsRunCommand := by
  intro i a b rest s h
  rw [transactionsOf_eq, List.append_assoc, List.append_assoc] at h
  rw [transactionsOf_eq, List.length_append, List.length_append]
  have hfirst := run_of_operandWrite ((operandWrite (readsA1 i) .a1 b).length + 1) h
  rw [afterOperandWrite_a0] at hfirst
  have hsecond := run_of_operandWrite (reads := readsA1 i) (r := .a1) (v := b) (rest := .wr32 .cmd (encode i) :: rest)
    (s := { s with inputs := _, a0 := if readsA0 i then a else s.a0 }) 1 rfl
  rw [afterOperandWrite_a1] at hsecond
  exact hfirst.trans (hsecond.trans (run_of_command rfl))

end Sys2Proof.Machine
end

section
/-! SUPPORT. What no command reads: the statement UnreadState (10_state.md R34; 20_memory.md R50; 30_encoding.md R71). The
outcomes of one command from two states that differ in nothing it reads are given together, command by command. -/

namespace Sys2Proof.Machine

/-- The state with other operands, another outcome in `STATUS` and other bytes in HOST_MEM. -/
def withUnread (a b : Word64) (e : Option CmdError) (y : Bool) (m : Memory) (s : State) : State :=
  { s with a0 := a, a1 := b, err := e, errSticky := y, written := m }

/-- The outcomes of one command from `s` and from `t`: the same stop, the same error, or both OK with the same fields written,
HOST_MEM the same too where it was so before. -/
inductive SameEnd (s t : State) : Host.Outcome State Fault Refusal → Host.Outcome State Fault Refusal → Prop where
  | fault (f : Fault) : SameEnd s t (.fault f) (.fault f)
  | error (e : CmdError) : SameEnd s t (.next (raiseError e s)) (.next (raiseError e t))
  | ok (r : Word64) (g : Gen) (d : Dctl) (z : Zipf) (k : Key) {m m' : Memory} (hm : s.written = t.written → m = m') :
    SameEnd s t (.next { s with err := none, r0 := r, gen := g, dctl := d, zipf := z, key := k, written := m })
      (.next { t with err := none, r0 := r, gen := g, dctl := d, zipf := z, key := k, written := m' })

/-- The same bytes written over two memories: both writes stop at one address, or both end, in one memory where the two were
one (R50). -/
theorem Memory.writeBytes_pair (cfg : Config) (bs : List Byte) (m m' : Memory) (a : Word64) :
    (∃ c, m.writeBytes cfg a bs = .error c ∧ m'.writeBytes cfg a bs = .error c) ∨
    (∃ m1 m2, m.writeBytes cfg a bs = .ok m1 ∧ m'.writeBytes cfg a bs = .ok m2 ∧ (m = m' → m1 = m2)) := by
  refine (Memory.writeBytes_outcome cfg bs m m' a).imp_right fun ⟨m1, m2, h1, h2⟩ => ⟨m1, m2, h1, h2, fun h => ?_⟩
  rw [h, h2] at h1
  exact (Except.ok.inj h1).symm

section
variable {cfg : Config} {s : State} {a b : Word64} {e : Option CmdError} {y : Bool} {m : Memory}

/-- A command that needs a context ends alike without it, and so it is enough to look at its ends with it (R213). -/
theorem SameEnd.guard {t : State} {c : Bool} {o o' : Host.Outcome State Fault Refusal} (h : c = true → SameEnd s t o o') :
    SameEnd s t (if c then o else .next (raiseError .notInitialised s))
      (if c then o' else .next (raiseError .notInitialised t)) := by
  cases c with
  | false => exact .error .notInitialised
  | true => exact h rfl

/-! ### The draws (R123, R124, R125, R146) -/

/-- Two draws, each with the state it leaves, that agree in the value, the generator and the dispatch flag. -/
structure DrawnAlike {α : Type} (w w' : α × State) : Prop where
  value : w'.1 = w.1
  gen : w'.2.gen = w.2.gen
  dctl : w'.2.dctl = w.2.dctl

/-- A word draw reads the generator and the dispatch flag alone. -/
theorem nextWord_withUnread : DrawnAlike (nextWord cfg s) (nextWord cfg (withUnread a b e y m s)) :=
  have ⟨hvalue, hgen⟩ := nextWord_congr (cfg := cfg) rfl (s := withUnread a b e y m s) (t := s) rfl
  ⟨hvalue, hgen, nextWord_dctl_congr cfg rfl rfl⟩

/-- A double draw reads the generator and the dispatch flag alone. -/
theorem nextDouble_withUnread : DrawnAlike (nextDouble cfg s) (nextDouble cfg (withUnread a b e y m s)) :=
  have ⟨hvalue, hgen⟩ := nextDouble_congr (cfg := cfg) rfl (s := withUnread a b e y m s) (t := s) rfl
  ⟨hvalue, hgen, nextDouble_dctl_congr cfg rfl rfl⟩

/-- Drawing bytes reads the generator and the dispatch flag alone. -/
theorem drawBytes_withUnread (n : Nat) : DrawnAlike (drawBytes cfg n s) (drawBytes cfg n (withUnread a b e y m s)) :=
  have ⟨hvalue, hgen⟩ := drawBytes_congr (cfg := cfg) rfl (s := withUnread a b e y m s) (t := s) rfl n
  ⟨hvalue, hgen, drawBytes_dctl_congr cfg (s := withUnread a b e y m s) (t := s) rfl rfl n⟩

/-- A command whose result is computed from a draw ends alike where the draws agree. -/
theorem DrawnAlike.sameEnd {α : Type} {w w' : α × State} (h : DrawnAlike w w') (result : α → Word64)
    (hw : w.2 = { s with gen := w.2.gen, dctl := w.2.dctl })
    (hw' : w'.2 = { withUnread a b e y m s with gen := w'.2.gen, dctl := w'.2.dctl }) :
    SameEnd s (withUnread a b e y m s) (.next (setOk (setR0 (result w.1) w.2)))
      (.next (setOk (setR0 (result w'.1) w'.2))) := by
  rw [hw, hw', h.value, h.gen, h.dctl]
  exact .ok _ _ _ _ _ id

/-- NEXT_U32 reads no operand. -/
theorem nextU32With_withUnread :
    SameEnd s (withUnread a b e y m s) (nextU32With cfg s) (nextU32With cfg (withUnread a b e y m s)) :=
  .guard fun _ => nextWord_withUnread.sameEnd (·.setWidth 64) (nextWord_state cfg s) (nextWord_state cfg _)

/-- NEXT_F64 reads no operand. -/
theorem nextF64With_withUnread :
    SameEnd s (withUnread a b e y m s) (nextF64With cfg s) (nextF64With cfg (withUnread a b e y m s)) :=
  .guard fun _ => nextDouble_withUnread.sameEnd bitsOf (nextDouble_state cfg s) (nextDouble_state cfg _)

/-- ZIPF_DRAW reads no operand; the Zipf context it reads is the same in both states. -/
theorem zipfDrawWith_withUnread :
    SameEnd s (withUnread a b e y m s) (zipfDrawWith cfg s) (zipfDrawWith cfg (withUnread a b e y m s)) :=
  .guard fun _ => nextDouble_withUnread.sameEnd (rank cfg s.zipf) (nextDouble_state cfg s) (nextDouble_state cfg _)

/-! ### The writers of HOST_MEM (R58, R110, R123) -/

/-- GENERATE reads both operands: it draws the same bytes and writes them to the same place. -/
theorem generateWith_withUnread :
    SameEnd s (withUnread s.a0 s.a1 e y m s) (generateWith cfg s) (generateWith cfg (withUnread s.a0 s.a1 e y m s)) := by
  set t := withUnread s.a0 s.a1 e y m s
  cases hv : s.gen.valid with
  | false =>
    rw [generateWith_invalid cfg hv, generateWith_invalid cfg (s := t) hv]
    exact .error .notInitialised
  | true =>
    have hdraw : DrawnAlike (drawBytes cfg s.a1.toNat s) (drawBytes cfg s.a1.toNat t) := drawBytes_withUnread _
    obtain ⟨c, h1, h2⟩ | ⟨m1, m2, h1, h2, hm⟩ :=
      Memory.writeBytes_pair cfg (drawBytes cfg s.a1.toNat s).1 s.written m s.a0
    · rw [← hdraw.value] at h2
      rw [generateWith_refused cfg s hv h1, generateWith_refused cfg t hv h2]
      exact .fault (.hostMemRefused c)
    · rw [← hdraw.value] at h2
      rw [generateWith_valid cfg s hv h1, generateWith_valid cfg t hv h2, ← hdraw.gen, ← hdraw.dctl]
      exact .ok _ _ _ _ _ hm

/-- MIX reads both operands: it writes the same bytes to the same place. -/
theorem mixWith_withUnread :
    SameEnd s (withUnread s.a0 s.a1 e y m s) (mixWith cfg s) (mixWith cfg (withUnread s.a0 s.a1 e y m s)) := by
  obtain ⟨c, h1, h2⟩ | ⟨m1, m2, h1, h2, hm⟩ := Memory.writeBytes_pair cfg (mixBytes cfg s.a0) s.written m s.a1
  · rw [mixWith_refused h1, mixWith_refused (s := withUnread s.a0 s.a1 e y m s) h2]
    exact .fault (.hostMemRefused c)
  · rw [mixWith_of_written h1, mixWith_of_written (s := withUnread s.a0 s.a1 e y m s) h2]
    exact .ok _ _ _ _ _ hm

/-! ### The initialisers (R142, R143, R144) -/

/-- An initialisation reads the values it is given alone. -/
theorem zipfInit_withUnread (n : Word64) (theta : F64) :
    SameEnd s (withUnread a b e y m s) (.next (zipfInit cfg n theta s))
      (.next (zipfInit cfg n theta (withUnread a b e y m s))) := by
  rw [zipfInit, zipfInit]
  split_ifs
  · exact .error .domainError
  · exact .ok _ _ _ _ _ id
  · exact .error .domainError

/-- ZIPF_INIT_ALPHA is an initialisation with the mapped `theta`: of the two checks that `n` is not 0 the first decides. -/
theorem zipfInitAlphaWith_eq (cfg : Config) (s : State) :
    zipfInitAlphaWith cfg s = .next (zipfInit cfg s.a0 (cfg.alphaMap (f64A1 s)) s) := by
  rw [zipfInitAlphaWith, intA0]
  split_ifs with hn
  · rw [zipfInit, if_pos hn]
  · rfl

/-- ZIPF_INIT_ALPHA reads both operands. -/
theorem zipfInitAlphaWith_withUnread : SameEnd s (withUnread s.a0 s.a1 e y m s) (zipfInitAlphaWith cfg s)
    (zipfInitAlphaWith cfg (withUnread s.a0 s.a1 e y m s)) := by
  rw [zipfInitAlphaWith_eq, zipfInitAlphaWith_eq]
  exact zipfInit_withUnread s.a0 (cfg.alphaMap (f64A1 s))

/-! ### All commands -/

/-- A command ends alike from two states that differ only in operands it does not read, in `STATUS` and in the bytes of
HOST_MEM. -/
theorem execWith_withUnread {i : Instr} (ha : readsA0 i = true → a = s.a0) (hb : readsA1 i = true → b = s.a1)
    (e : Option CmdError) (y : Bool) (m : Memory) :
    SameEnd s (withUnread a b e y m s) (execWith cfg i s) (execWith cfg i (withUnread a b e y m s)) := by
  cases i with
  | seed => obtain rfl := ha rfl; exact .ok _ _ _ _ _ id
  | generate => obtain rfl := ha rfl; obtain rfl := hb rfl; exact generateWith_withUnread
  | nextU32 => exact nextU32With_withUnread
  | nextF64 => exact nextF64With_withUnread
  | mix => obtain rfl := ha rfl; obtain rfl := hb rfl; exact mixWith_withUnread
  | zipfInitAlpha => obtain rfl := ha rfl; obtain rfl := hb rfl; exact zipfInitAlphaWith_withUnread
  | zipfInitTheta => obtain rfl := ha rfl; obtain rfl := hb rfl; exact zipfInit_withUnread s.a0 (f64A1 s)
  | zipfDraw => exact zipfDrawWith_withUnread
  | rekey => obtain rfl := ha rfl; exact .ok _ _ _ _ _ id
  | scramble => obtain rfl := ha rfl; exact .guard fun _ => .ok _ _ _ _ _ id
  | disableAccel => exact .ok _ _ _ _ _ id
  | maybeEnableAccel => exact .ok _ _ _ _ _ id

/-- Outcomes that end alike are equal up to a part of the state where the errors and the completions are. -/
theorem SameEnd.mapNext_eq {t : State} {o o' : Host.Outcome State Fault Refusal} {f f' : State → State}
    (h : SameEnd s t o o') (herror : ∀ e, f (raiseError e t) = f' (raiseError e s))
    (hok : ∀ r g d z k m m', (s.written = t.written → m = m') →
      f { t with err := none, r0 := r, gen := g, dctl := d, zipf := z, key := k, written := m' } =
        f' { s with err := none, r0 := r, gen := g, dctl := d, zipf := z, key := k, written := m }) :
    mapNext f o' = mapNext f' o := by
  cases h with
  | fault r => rfl
  | error e => exact congrArg Host.Outcome.next (herror e)
  | ok r g d z k hm => exact congrArg Host.Outcome.next (hok r g d z k _ _ hm)

end

/-- An outcome whose next state is left as it is. -/
@[simp] theorem mapNext_id (o : Host.Outcome State Fault Refusal) : mapNext id o = o := by cases o <;> rfl

/-- Settles O57: in each clause the two states differ only in what the command does not read, so it ends alike from both; what
is left is to compare the states after an error and after a completion. -/
theorem unreadState : Obligations.UnreadState := by
  intro cfg i s
  refine ⟨fun v hr => ?_, fun v hr => ?_, fun e y => ?_, fun m m' => ?_⟩
  · have h := execWith_withUnread (cfg := cfg) (s := s) (a := v) (b := s.a1) (i := i) (by simp [hr]) (fun _ => rfl)
      s.err s.errSticky s.written
    rw [← mapNext_id (execWith cfg i (setA0 v s))]
    exact h.mapNext_eq (fun e => by cases e <;> rfl) fun _ _ _ _ _ _ _ hm => by rw [hm rfl]; rfl
  · have h := execWith_withUnread (cfg := cfg) (s := s) (a := s.a0) (b := v) (i := i) (fun _ => rfl) (by simp [hr])
      s.err s.errSticky s.written
    rw [← mapNext_id (execWith cfg i (setA1 v s))]
    exact h.mapNext_eq (fun e => by cases e <;> rfl) fun _ _ _ _ _ _ _ hm => by rw [hm rfl]; rfl
  · have h := execWith_withUnread (cfg := cfg) (s := s) (i := i) (fun _ => rfl) (fun _ => rfl) e y s.written
    exact h.mapNext_eq (fun e => by cases e <;> rfl) fun _ _ _ _ _ _ _ hm => by rw [hm rfl]; rfl
  · have h := execWith_withUnread (cfg := cfg) (s := s) (i := i) (fun _ => rfl) (fun _ => rfl) s.err s.errSticky m'
    exact h.mapNext_eq (fun e => by cases e <;> rfl) fun _ _ _ _ _ _ _ _ => rfl

end Sys2Proof.Machine
end

section
/-! SUPPORT. The Mixing Primitive and the command MIX: the statements MixResult, MixingVectors and RowRoundTransposesColumnRound
(40_mixing.md R104 to R110; 20_memory.md R66). -/

namespace Sys2Proof.Machine

/-! ### The bytes of MIX (R108, R110) -/

/-- Where each byte of the block comes from (R108): byte `4j + t` is byte `t` of word `j`. -/
theorem mixBytes_getElem? (cfg : Config) (c : Word64) {j t : Nat} (hj : j < 16) (ht : t < 4) :
    (mixBytes cfg c)[4 * j + t]? = some (byteLE (mixWords cfg c)[j] t) := by
  have hk : (4 * j + t) % 64 = 4 * j + t := Nat.mod_eq_of_lt (by omega)
  have hword : (4 * j + t) / 4 = j := by omega
  have hbyte : (4 * j + t) % 4 = t := by omega
  rw [mixBytes, List.getElem?_map, List.getElem?_range (by omega)]
  simp only [Option.map_some, blockByte, Fin.val_ofNat, hk, hword, hbyte]

/-- Settles O24: where every byte is taken the write completes, and it reads back as the block inside the span, which is 64
bytes long, and as the old memory outside it. -/
theorem mixResult : Obligations.MixResult := by
  intro cfg s hspan
  obtain ⟨m, hm⟩ : ∃ m, s.written.writeBytes cfg s.a1 (mixBytes cfg s.a0) = .ok m :=
    Memory.writeBytes_of_accepted fun i hi => hspan i (by rwa [mixBytes_length] at hi)
  have hread := Memory.read_writeBytes (by rw [mixBytes_length]; decide) hm
  refine ⟨m, mixWith_of_written hm, fun j t hj ht => ?_, fun a ha => ?_⟩
  · have hoffset : (s.a1 + BitVec.ofNat 64 (4 * j + t) - s.a1).toNat = 4 * j + t := by
      rw [add_sub_cancel_left, BitVec.toNat_ofNat]
      omega
    rw [hread, hoffset, mixBytes_getElem? cfg s.a0 hj ht, Option.some_or, byteLE]
  · rw [hread, List.getElem?_eq_none (by rwa [mixBytes_length]), Option.none_or]

/-! ### Worked values and the two rounds (R104 to R107, R109) -/

/-- Settles O25: each value is evaluated. -/
theorem mixingVectors : Obligations.MixingVectors :=
  ⟨by decide, by decide, by decide, by decide +kernel, by decide +kernel⟩

/-- Settles O26: entry by entry both sides are the same entry of a quarter-round of the same four words. -/
theorem rowRoundTransposesColumnRound : Obligations.RowRoundTransposesColumnRound := by
  intro x
  ext k hk
  simp only [rowRound, columnRound, Vector.getElem_ofFn]
  interval_cases k <;> rfl

end Sys2Proof.Machine
end

section
/-! SUPPORT. The generator without a draw: the statements SeedResult, NotInitialised, RefillLayout and StreamsRecur
(41_generator.md R120 to R122, R129; 60_exceptions.md R213; 70_reset_and_hazards.md R236). -/

namespace Sys2Proof.Machine

/-! ### SEED and the valid bits (R120, R122, R213) -/

/-- A valid generator whose buffer is exhausted and whose counter is the seed has drawn nothing yet (R122). -/
theorem atStream_start {g : Gen} (hv : g.valid = true) (hc : g.cursor.val = 256) : AtStream g g.counter 0 :=
  ⟨hv, 0, (BitVec.add_zero g.counter).symm, by omega, fun hlt => by omega⟩

/-- Settles O12: the next state is read off the definition, and its generator stands at the start of the stream. -/
theorem seedResult : Obligations.SeedResult :=
  fun s => ⟨_, rfl, rfl, atStream_start (g := { s.gen with valid := true, counter := s.a0, cursor := 256 }) rfl rfl⟩

/-- Settles O51: each command answers the error where its context is not valid; ZIPF_DRAW needs two. -/
theorem notInitialised : Obligations.NotInitialised := by
  refine fun s => ⟨fun hg i hi => ?_, fun hz => ?_, fun hk => scrambleWith_invalid config hk⟩
  · simp only [List.mem_cons, List.not_mem_nil, or_false] at hi
    obtain rfl | rfl | rfl | rfl := hi
    · exact generateWith_invalid config hg
    · exact nextU32With_invalid config hg
    · exact nextF64With_invalid config hg
    · exact zipfDrawWith_invalid config (by rw [hg, Bool.false_and])
  · exact zipfDrawWith_invalid config (by rw [hz, Bool.and_false])

/-! ### The layout of a refill, and how streams recur (R121, R129, R236) -/

/-- Settles O22: the byte of a refill at `4w + t`. -/
theorem refillLayout : Obligations.RefillLayout := by
  intro c w t hw ht
  have hlane : (4 * w + t) / 4 % 4 = w % 4 := by omega
  have hword : (4 * w + t) / 16 = w / 4 := by omega
  have hbyte : (4 * w + t) % 4 = t := by omega
  rw [fillBuffer_getElem]
  simp only [hlane, hword, hbyte, byteLE]

/-- A seed that is `4q` higher gives the stream from its `q`-th refill on (R129). -/
theorem streamByte_add_refills (seed : Word64) (q p : Nat) :
    streamByte (seed + BitVec.ofNat 64 (4 * q)) p = streamByte seed (p + 256 * q) := by
  have hlane : 4 * ((p + 256 * q) / 256) + (p + 256 * q) / 4 % 4 = 4 * q + (4 * (p / 256) + p / 4 % 4) := by omega
  have hword : (p + 256 * q) % 256 / 16 = p % 256 / 16 := by omega
  have hbyte : (p + 256 * q) % 4 = p % 4 := by omega
  rw [streamByte_lane, streamByte_lane, hlane, hword, hbyte, BitVec.ofNat_add (4 * q), BitVec.add_assoc]

/-- Byte `t` of word `j` of lane `k` of the `q`-th refill is that of the counter `seed + 4q + k` (R121, R129). -/
theorem streamByte_of_lane (seed : Word64) (q : Nat) {j k t : Nat} (hj : j < 16) (hk : k < 4) (ht : t < 4) :
    streamByte seed (256 * q + 4 * (4 * j + k) + t) = laneByte (seed + BitVec.ofNat 64 (4 * q + k)) j t := by
  have hlane : 4 * ((256 * q + 4 * (4 * j + k) + t) / 256) + (256 * q + 4 * (4 * j + k) + t) / 4 % 4 = 4 * q + k := by
    omega
  have hword : (256 * q + 4 * (4 * j + k) + t) % 256 / 16 = j := by omega
  have hbyte : (256 * q + 4 * (4 * j + k) + t) % 4 = t := by omega
  rw [streamByte_lane, hlane, hword, hbyte]

/-- Settles O23: each lane is a function of the seed, the refill and the lane number summed, and `2^62` refills bring the counter
round. -/
theorem streamsRecur : Obligations.StreamsRecur := by
  refine ⟨streamByte_add_refills, fun seed q j k t hj hk ht => ?_, fun seed p => ?_⟩
  · have hnext : seed + 1 + BitVec.ofNat 64 (4 * q + k) = seed + BitVec.ofNat 64 (4 * q + (k + 1)) := by
      rw [← Nat.add_assoc, BitVec.ofNat_add (4 * q + k) 1, BitVec.add_comm (BitVec.ofNat 64 (4 * q + k)), ← BitVec.add_assoc]
      rfl
    rw [streamByte_of_lane seed q hj (by omega) ht, streamByte_of_lane (seed + 1) q hj (by omega) ht, hnext]
  · have hrefills : 2 ^ 64 * 64 = 256 * 2 ^ 62 := by norm_num
    have hround : BitVec.ofNat 64 (4 * 2 ^ 62) = 0#64 := by decide
    rw [hrefills, ← streamByte_add_refills, hround, BitVec.add_zero]

end Sys2Proof.Machine
end

section
/-! SUPPORT. The draws of words and doubles: the statements NextU32InBuffer, NextU32Refills, NextU32Stream, NextF64Draws and
NextF64Range (41_generator.md R121, R124, R125, R129). -/

namespace Sys2Proof.Machine

/-! ### NEXT_U32 (R124) -/

/-- The aligned word of the buffer at a cursor is four bytes of the buffer (R25). -/
theorem bufWord_alignUp (g : Gen) {c : Nat} (h : alignUp c + 3 < 256) : bufWord g (alignUp c / 4) =
    wordLE g.buffer[alignUp c] g.buffer[alignUp c + 1] g.buffer[alignUp c + 2] g.buffer[alignUp c + 3] := by
  have hmul : 4 * (alignUp c / 4) = alignUp c := by unfold alignUp; omega
  rw [bufWord, hmul, bufByte_of_lt, bufByte_of_lt, bufByte_of_lt, bufByte_of_lt]

/-- Settles O17: the word draw inside the buffer. -/
theorem nextU32InBuffer : Obligations.NextU32InBuffer := by
  intro s h hv
  refine (nextU32With_valid config s hv).trans ?_
  rw [nextWord_inBuffer config s h, bufWord_alignUp s.gen (by unfold alignUp; omega)]

/-- Settles O18: the word draw that refills first. -/
theorem nextU32Refills : Obligations.NextU32Refills := by
  intro s h hv
  refine (nextU32With_valid config s hv).trans ?_
  have hgen : { refillGen config s.gen with cursor := ⟨4, by decide⟩ } =
      ({ valid := true, counter := s.gen.counter + 4, cursor := ⟨4, by decide⟩,
         buffer := fillBuffer config s.gen.counter } : Gen) :=
    congrArg (Gen.mk · _ _ _) hv
  rw [nextWord_refill config s h, bufWord_refillGen, hgen]

/-- Settles O19: the word draw takes the next aligned word of the stream. -/
theorem nextU32Stream : Obligations.NextU32Stream := by
  intro s seed p h
  obtain ⟨hword, hnext⟩ := h.nextWord
  exact ⟨_, nextU32With_valid config s h.1, congrArg (BitVec.setWidth 64) hword, hnext⟩

/-! ### NEXT_F64 (R125) -/

/-- The state after NEXT_U32 with a valid generator (R124). -/
def afterNextU32 (cfg : Config) (s : State) : State :=
  { s with err := none, r0 := (nextWord cfg s).1.setWidth 64, gen := (nextWord cfg s).2.gen, dctl := (nextWord cfg s).2.dctl }

/-- NEXT_U32 with a valid generator answers that state. -/
theorem nextU32With_eq_afterNextU32 (cfg : Config) {s : State} (hv : s.gen.valid = true) :
    nextU32With cfg s = .next (afterNextU32 cfg s) :=
  nextU32With_valid cfg s hv

/-- The word in `R0` as an integer (R71). -/
theorem afterNextU32_r0_toNat (cfg : Config) (s : State) : (afterNextU32 cfg s).r0.toNat = (nextWord cfg s).1.toNat :=
  BitVec.toNat_setWidth_of_le (by decide)

/-- A word draw after NEXT_U32 is the second of two word draws. -/
theorem nextWord_afterNextU32 (cfg : Config) (s : State) :
    DrawnAlike (nextWord cfg (nextWord cfg s).2) (nextWord cfg (afterNextU32 cfg s)) :=
  have ⟨hvalue, hgen⟩ := nextWord_congr (cfg := cfg) rfl (s := afterNextU32 cfg s) (t := (nextWord cfg s).2) rfl
  ⟨hvalue, hgen, nextWord_dctl_congr cfg (s := afterNextU32 cfg s) (t := (nextWord cfg s).2) rfl rfl⟩

/-- NEXT_F64 leaves what two NEXT_U32 leave, but for the result, which is computed from their words (R125). -/
theorem nextF64With_eq_afterNextU32 (cfg : Config) {s : State} (hv : s.gen.valid = true) :
    nextF64With cfg s = .next { afterNextU32 cfg (afterNextU32 cfg s) with
      r0 := bitsOf (f64OfFraction53 (fraction53 (nextWord cfg s).1 (nextWord cfg (afterNextU32 cfg s)).1)) } := by
  have hsecond := nextWord_afterNextU32 cfg s
  rw [nextF64With_valid cfg s hv, nextDouble, ← hsecond.value, ← hsecond.gen, ← hsecond.dctl]
  rfl

/-- Settles O20: the fraction of the two words is exact, and its pattern is read back. -/
theorem nextF64Draws : Obligations.NextF64Draws := by
  intro s hv
  have hv' : (afterNextU32 config s).gen.valid = true := (nextWord_valid config s).trans hv
  obtain ⟨e, f, hfin, hscaled⟩ :=
    f64OfFraction53_exact (fraction53_lt (nextWord config s).1 (nextWord config (afterNextU32 config s)).1)
  refine ⟨_, _, e, f, _, nextU32With_eq_afterNextU32 config hv, nextU32With_eq_afterNextU32 config hv',
    nextF64With_eq_afterNextU32 config hv, ?_, ?_⟩
  · rw [hfin, f64OfBits_fin]
  · rw [hscaled, fraction53_eq, afterNextU32_r0_toNat, afterNextU32_r0_toNat]

/-- The pattern of a fraction `m * 2^-53` is zero or lies between those of `2^-53` and `1 - 2^-53` (R125). -/
theorem bitsOf_fraction53 {m : Nat} (hm : m < 2 ^ 53) : bitsOf (f64OfFraction53 m) = 0 ∨
    (0x3CA0000000000000 ≤ (bitsOf (f64OfFraction53 m)).toNat ∧ (bitsOf (f64OfFraction53 m)).toNat ≤ 0x3FEFFFFFFFFFFFFF) := by
  obtain ⟨e, f, hfin, hscaled⟩ := f64OfFraction53_exact hm
  rw [hfin]
  rcases Nat.eq_zero_or_pos m with rfl | hpos
  · obtain ⟨rfl, rfl⟩ := scaled_eq_zero.mp (hscaled.trans (Nat.zero_mul _))
    exact .inl rfl
  · have hleast : scaled ⟨0x3CA, by decide⟩ 0 = 1 * 2 ^ (1074 - 53) := by decide +kernel
    have hgreatest : scaled ⟨0x3FE, by decide⟩ 0xFFFFFFFFFFFFF = (2 ^ 53 - 1) * 2 ^ (1074 - 53) := by decide +kernel
    have hlow : ¬ scaled e f < scaled ⟨0x3CA, by decide⟩ 0 := by
      rw [hleast, hscaled]
      exact not_lt.mpr (Nat.mul_le_mul_right _ hpos)
    have hhigh : ¬ scaled ⟨0x3FE, by decide⟩ 0xFFFFFFFFFFFFF < scaled e f := by
      rw [hgreatest, hscaled]
      exact not_lt.mpr (Nat.mul_le_mul_right _ (Nat.le_sub_one_of_lt hm))
    rw [scaled_lt_iff, not_lt] at hlow hhigh
    rw [bitsOf_fin_toNat]
    exact .inr ⟨hlow, hhigh⟩

/-- Settles O21: the result is the pattern of a fraction of 53 bits. -/
theorem nextF64Range : Obligations.NextF64Range :=
  fun s hv => ⟨_, nextF64With_valid config s hv, bitsOf_fraction53 (fraction53_lt _ _)⟩

end Sys2Proof.Machine
end

section
/-! SUPPORT. The command GENERATE: the statements GenerateCompletes, GenerateWritesStream and GenerateContinuity
(41_generator.md R121, R123, R128, R129; 20_memory.md R66; 60_exceptions.md R225). -/

namespace Sys2Proof.Machine

section
variable {cfg : Config} {s : State}

/-- The part of an accepted span from its `m`-th address on. -/
theorem spanAccepted.drop {a : Word64} {m n : Nat} (h : spanAccepted cfg a (m + n)) :
    spanAccepted cfg (a + BitVec.ofNat 64 m) n := by
  intro i hi
  rw [BitVec.add_assoc, ← BitVec.ofNat_add]
  exact h (m + i) (by omega)

/-- The bytes drawn for an accepted span are written. -/
theorem writeBytes_drawBytes {a : Word64} {n : Nat} (h : spanAccepted cfg a n) :
    ∃ m, s.written.writeBytes cfg a (drawBytes cfg n s).1 = .ok m :=
  Memory.writeBytes_of_accepted (by rwa [drawBytes_length])

/-- The state after GENERATE of `n` bytes to `a`, which leaves `m` in HOST_MEM (R123). -/
def afterGenerate (cfg : Config) (a : Word64) (n : Nat) (m : Memory) (s : State) : State :=
  { s with
    a0 := a, a1 := BitVec.ofNat 64 n, err := none, written := m
    gen := (drawBytes cfg n s).2.gen, dctl := (drawBytes cfg n s).2.dctl }

/-- GENERATE of `n` bytes to an address from which the platform takes them answers that state. -/
theorem generateWith_eq_afterGenerate {a : Word64} {n : Nat} {m : Memory} (hv : s.gen.valid = true) (hn : n < 2 ^ 64)
    (hm : s.written.writeBytes cfg a (drawBytes cfg n s).1 = .ok m) :
    generateWith cfg { s with a0 := a, a1 := BitVec.ofNat 64 n } = .next (afterGenerate cfg a n m s) := by
  have hlen : (BitVec.ofNat 64 n).toNat = n := Nat.mod_eq_of_lt hn
  have hdraw : DrawnAlike (drawBytes cfg n s) (drawBytes cfg n { s with a0 := a, a1 := BitVec.ofNat 64 n }) :=
    drawBytes_withUnread (e := s.err) (y := s.errSticky) (m := s.written) n
  refine (generateWith_valid cfg { s with a0 := a, a1 := BitVec.ofNat 64 n } hv (m := m) ?_).trans ?_
  · rw [hlen, hdraw.value]
    exact hm
  · rw [hlen, hdraw.gen, hdraw.dctl]
    rfl

/-- Drawing bytes after GENERATE goes on from the bytes that it drew (R123). -/
theorem drawBytes_afterGenerate (a : Word64) (n : Nat) (m : Memory) (k : Nat) :
    DrawnAlike (drawBytes cfg k (drawBytes cfg n s).2) (drawBytes cfg k (afterGenerate cfg a n m s)) :=
  have ⟨hvalue, hgen⟩ :=
    drawBytes_congr (cfg := cfg) rfl (s := afterGenerate cfg a n m s) (t := (drawBytes cfg n s).2) rfl k
  ⟨hvalue, hgen, drawBytes_dctl_congr cfg (s := afterGenerate cfg a n m s) (t := (drawBytes cfg n s).2) rfl rfl k⟩

end

/-- Settles O13: the bytes drawn are written, and the rules for drawing bytes and for writing a list of bytes give every field. -/
theorem generateCompletes : Obligations.GenerateCompletes := by
  intro cfg s hv hspan
  obtain ⟨m, hm⟩ := writeBytes_drawBytes (s := s) hspan
  obtain ⟨hvalid, hcounter, hcursor, hkept, hdctl⟩ := drawBytes_gen cfg s s.a1.toNat
  refine ⟨m, _, ?_, hvalid.trans hv, hcounter, hcursor, ?_, fun a ha => ?_, fun h0 => ?_⟩
  · rw [← hdctl]
    exact generateWith_valid cfg s hv hm
  · split
    · next hr => exact hkept hr
    · next hr => exact drawBytes_buffer cfg s _ hr
  · rw [Memory.read_writeBytes (by rw [drawBytes_length]; exact s.a1.isLt.le) hm,
      List.getElem?_eq_none (by rwa [drawBytes_length]), Option.none_or]
  · rw [h0] at hm ⊢
    exact ⟨(Except.ok.inj hm).symm, rfl⟩

/-- Settles O14: the platform changes no byte drawn, the bytes drawn are those of the stream, and each is read back from its
address. -/
theorem generateWritesStream : Obligations.GenerateWritesStream := by
  intro present refuses s seed p h hspan
  obtain ⟨m, hm⟩ := writeBytes_drawBytes (s := s) hspan
  obtain ⟨hvalue, hgen⟩ := drawBytes_congr (fillBuffer_configOn present refuses) (s := s) rfl s.a1.toNat
  obtain ⟨hbytes, hnext⟩ := h.drawBytes (n := s.a1.toNat)
  refine ⟨_, generateWith_valid _ s h.1 hm, ?_, fun i hi => ?_⟩
  · rwa [← hgen] at hnext
  · have hoffset : (s.a0 + BitVec.ofNat 64 i - s.a0).toNat = i := by
      rw [add_sub_cancel_left]
      exact Nat.mod_eq_of_lt (hi.trans s.a1.isLt)
    show m.read _ = _
    rw [Memory.read_writeBytes (by rw [drawBytes_length]; exact s.a1.isLt.le) hm, hoffset, hvalue, hbytes i hi,
      Option.some_or]

/-- Settles O15: drawing and writing `m + n` bytes is drawing and writing `m` and then `n`. -/
theorem generateContinuity : Obligations.GenerateContinuity := by
  intro cfg s m n hv hlt hspan
  obtain ⟨w, hw⟩ := writeBytes_drawBytes (s := s) (n := m) fun i hi => hspan i (by omega)
  have hv' : (afterGenerate cfg s.a0 m w s).gen.valid = true := (drawBytes_gen cfg s m).1.trans hv
  obtain ⟨w', hw'⟩ := writeBytes_drawBytes (s := afterGenerate cfg s.a0 m w s) hspan.drop
  have hdraw := drawBytes_afterGenerate (cfg := cfg) (s := s) s.a0 m w n
  have hboth : s.written.writeBytes cfg s.a0 (drawBytes cfg (m + n) s).1 = .ok w' := by
    rw [drawBytes_add, Memory.writeBytes_append, hw, drawBytes_length, ← hdraw.value]
    exact hw'
  refine ⟨_, _, _, generateWith_eq_afterGenerate hv (by omega) hw, generateWith_eq_afterGenerate hv' (by omega) hw',
    generateWith_eq_afterGenerate hv hlt hboth, ?_, rfl, ?_⟩
  · rw [afterGenerate, hdraw.gen, afterGenerate, drawBytes_add]
  · rw [afterGenerate, hdraw.dctl, afterGenerate, drawBytes_add]

end Sys2Proof.Machine
end

section
/-! SUPPORT. POW64 and the initialisation of the Zipf context: the statements Pow64Properties, ZipfInitThetaResult, ThetaPatterns,
ZipfDomainError, ZipfInitAlphaRoute and ZipfSmallPopulations (42_zipf.md R141 to R144, R147, R148). -/

namespace Sys2Proof.Machine

/-! ### POW64 (R141) -/

/-- A datum above `+0.0` is not below it. -/
theorem fge_zero_of_flt {x : F64} (h : flt F64.zero x = true) : fge x F64.zero = true := by
  cases x with
  | nan => cases h
  | inf n =>
    cases n with
    | false => rfl
    | true => cases h
  | fin n e f =>
    rw [flt_fin, decide_eq_true_iff] at h
    rw [fge_fin, decide_eq_true_iff]
    exact h.le

/-- A NaN is not above or equal to anything. -/
theorem ne_nan_of_fge {x y : F64} (h : fge x y = true) : x ≠ .nan := by
  rintro rfl
  cases h

/-- What POW64 makes of its open part for P4 is `+0.0`, `-0.0` or positive. -/
theorem fge_nonNegative (d : F64) : fge (nonNegative d) F64.zero = true := by
  cases d with
  | nan => rfl
  | inf n => rfl
  | fin n e f =>
    rw [nonNegative]
    split_ifs with h
    · obtain ⟨rfl, rfl⟩ := scaled_eq_zero.mp h
      cases n <;> decide
    · simp [fge_fin]

/-- P4 of R141, in each of the cases that the other properties leave. -/
theorem fge_pow64 {x y : F64} (hx : isFinite x = true) (hpos : flt F64.zero x = true) (hy : isFinite y = true) :
    fge (pow64 x y) F64.zero = true := by
  have hone : fge F64.one F64.zero = true := fge_zero_of_flt (by decide +kernel)
  rw [pow64, hx, hpos, hy, Bool.and_self, Bool.and_self, if_pos (rfl : true = true)]
  split_ifs
  · exact hone
  · exact hone
  · exact fge_zero_of_flt hpos
  · exact fge_nonNegative _

/-- Settles O32: P1 to P3 hold of every operand, and P4 of what is left. -/
theorem pow64Properties : Obligations.Pow64Properties := by
  simp only [Obligations.Pow64Properties, config_pow64]
  refine ⟨pow64_zero, one_pow64, pow64_one, fun x y hx hpos hy => ?_⟩
  have hge := fge_pow64 hx hpos hy
  exact ⟨ne_nan_of_fge hge, hge⟩

/-! ### The initialisers (R142, R143, R144, R147) -/

/-- The context of `n` and `theta`, the sum as a fold and `zeta2` with P2 of R141. -/
theorem zipfContext_config (n : Word64) (theta : F64) : zipfContext config n theta =
    let nt := fsub F64.zero theta
    let zetan := (List.range n.toNat).foldl (fun z k => fadd z (config.pow64 (f64OfU64 (k + 1)) nt)) F64.zero
    let zeta2 := fadd F64.one (config.pow64 F64.two nt)
    { valid := true
      n := n
      theta := theta
      alphaExp := fdiv F64.one (fsub F64.one theta)
      zetan := zetan
      zeta2 := zeta2
      eta := zipfEta config.pow64 (f64OfU64 n.toNat) (fsub F64.one theta) zetan zeta2 } := by
  rw [zipfContext, zetaSum_foldl, zetaTwo_eq]

/-- Settles O33: the initialiser passes its checks and writes the context of its operands. -/
theorem zipfInitThetaResult : Obligations.ZipfInitThetaResult := by
  rintro s theta rfl hn hok
  refine (zipfInitThetaWith_ok hn hok).trans ?_
  rw [zipfContext_config]
  rfl

/-- Settles O35: both initialisers end in the one error entry, which writes the named fields alone. -/
theorem zipfDomainError : Obligations.ZipfDomainError :=
  ⟨fun _ h => ⟨_, _, rfl, zipfInitThetaWith_domain h⟩, fun _ h => ⟨_, _, rfl, zipfInitAlphaWith_domain (cfg := config) h⟩⟩

/-- Settles O36: both initialisers write the context of `n` and `theta`; the pattern of `theta` reads back as `theta`. -/
theorem zipfInitAlphaRoute : Obligations.ZipfInitAlphaRoute := by
  rintro s theta rfl hn hok
  have hback := bitsRoundTrip.1 (fsub F64.one (fdiv F64.one (f64OfBits s.a1)))
  refine ⟨_, zipfInitThetaWith_ok hn (by rwa [hback]), ?_, rfl, hback, rfl⟩
  rw [hback]
  exact zipfInitAlphaWith_ok (cfg := config) hn hok

/-! ### The test on `theta`, by patterns (R142, R143) -/

/-- A finite magnitude is below that of `1.0` exactly where the pattern without its sign bit is. -/
theorem scaled_lt_one_iff {e : Fin 2047} {f : BitVec 52} :
    scaled e f < 2 ^ 1074 ↔ e.val * 2 ^ 52 + f.toNat < 0x3FF0000000000000 := by
  rw [← scaled_one, scaled_lt_iff]
  rfl

/-- A finite magnitude is zero exactly where the pattern without its sign bit is. -/
theorem scaled_eq_zero_iff_pattern {e : Fin 2047} {f : BitVec 52} :
    scaled e f = 0 ↔ e.val * 2 ^ 52 + f.toNat = 0 := by
  rw [scaled_eq_zero, Fin.ext_iff, ← BitVec.toNat_inj]
  simp

/-- Settles O34: a finite `theta` passes where its magnitude is below that of `1.0`, and with the sign bit set only where it is
zero. -/
theorem thetaPatterns : Obligations.ThetaPatterns := by
  intro w
  have hminus : w = 0x8000000000000000 ↔ w.toNat = 0x8000000000000000 := BitVec.toNat_inj.symm
  rw [hminus]
  obtain ⟨n, e, f, hw, hn⟩ | ⟨hbig, hw⟩ := f64OfBits_cases w
  · have he := e.isLt
    have hf := f.isLt
    rw [hw, hn, thetaOk_fin, scaled_lt_one_iff, scaled_eq_zero_iff_pattern]
    cases n with
    | false =>
      simp only [Bool.false_eq_true, false_imp_iff, and_true, Bool.toNat_false]
      omega
    | true =>
      simp only [true_imp_iff, Bool.toNat_true]
      omega
  · have hbad : thetaOk (f64OfBits w) = false := by
      obtain ⟨n, hw⟩ | hw := hw
      · rw [hw, thetaOk_inf]
      · rw [hw, thetaOk_nan]
    rw [hbad]
    refine iff_of_false Bool.false_ne_true ?_
    omega

/-! ### The smallest populations (R142, R148) -/

/-- An integer up to `2^53` is the datum of its magnitude. -/
theorem f64OfU64_eq_fin {k : Nat} {e : Fin 2047} {f : BitVec 52} (hk : k ≤ 2 ^ 53) (h : scaled e f = k * 2 ^ 1074) :
    f64OfU64 k = .fin false e f := by
  obtain ⟨e', f', hfin, hscaled⟩ := f64OfU64_exact hk
  obtain ⟨rfl, rfl⟩ := scaled_inj (h.trans hscaled.symm)
  exact hfin

/-- The first operand of the sum. -/
@[simp] theorem f64OfU64_one : f64OfU64 1 = F64.one :=
  f64OfU64_eq_fin (by norm_num) (scaled_one.trans (Nat.one_mul _).symm)

/-- The second operand of the sum. -/
@[simp] theorem f64OfU64_two : f64OfU64 2 = F64.two := f64OfU64_eq_fin (by norm_num) scaled_two

/-- The sum of one term, by P2 of R141. -/
theorem zetaSum_one (nt : F64) : zetaSum config.pow64 nt 1 = F64.one := by
  rw [zetaSum, zetaSum, Nat.zero_add, f64OfU64_one, config_pow64, one_pow64, zero_fadd_one]

/-- The sum of two terms is `zeta2`. -/
theorem zetaSum_two (nt : F64) : zetaSum config.pow64 nt 2 = zetaTwo config.pow64 nt := by
  rw [zetaTwo_eq, zetaSum, zetaSum_one, f64OfU64_two]

/-- A sum goes on from the sum of its first terms. -/
theorem zetaSum_add (pow : F64 → F64 → F64) (nt : F64) (m k : Nat) : zetaSum pow nt (m + k) =
    (List.range k).foldl (fun z j => fadd z (pow (f64OfU64 (j + (m + 1))) nt)) (zetaSum pow nt m) := by
  induction k with
  | zero => rfl
  | succ k ih =>
    rw [List.range_succ, List.foldl_append, List.foldl_cons, List.foldl_nil, ← ih, ← Nat.add_assoc, zetaSum,
      Nat.add_left_comm k m 1, Nat.add_assoc]

/-- Settles O39: the sums of one and of two terms are those of P2, and a longer sum goes on from them. -/
theorem zipfSmallPopulations : Obligations.ZipfSmallPopulations := by
  intro theta
  refine ⟨zetaSum_one _, zetaSum_two _, fun _ => (zetaSum_two _).symm, fun k => ?_⟩
  rw [zetaSum_add, zetaSum_two, zetaTwo_eq]

end Sys2Proof.Machine
end

section
/-! SUPPORT. Which patterns of `alpha` an initialisation accepts: the statement AlphaPatterns (42_zipf.md R140, R142, R144). -/

namespace Sys2Proof.Machine

set_option exponentiation.threshold 3000

/-- A finite magnitude below `2^53 * 2^a` units is at most the next lower one. -/
theorem scaled_le_of_lt {e : Fin 2047} {f : BitVec 52} {a : Nat} (h : scaled e f < 2 ^ 53 * 2 ^ a) :
    scaled e f ≤ (2 ^ 53 - 1) * 2 ^ a :=
  have hn : Normal (2 ^ 53 - 1) a := ⟨by norm_num, .inr (by norm_num)⟩
  (Rep.not_between ⟨e, f, rfl⟩ hn).resolve_right h.not_ge

/-- A rounded reciprocal passes a power of two exactly where its operand is below the reciprocal power; units count twice, as
`2^2148`. -/
theorem lt_rounded_reciprocal_iff {e : Fin 2047} {f : BitVec 52} {i j : Nat} (hij : i + j = 2148) (hi : 52 ≤ i) (hj : 53 ≤ j)
    (h0 : 0 < scaled e f) : 2 ^ i < roundNearest (2 ^ 1074 * 2 ^ 1074) (scaled e f) ↔ scaled e f < 2 ^ j := by
  obtain ⟨b, rfl⟩ := Nat.exists_eq_add_of_le hi
  obtain ⟨a, rfl⟩ := Nat.exists_eq_add_of_le hj
  rw [Nat.pow_add 2 52, Nat.pow_add 2 53]
  refine ⟨fun h => ?_, fun h => ?_⟩
  · by_contra hge
    have hle : 2 ^ 1074 * 2 ^ 1074 ≤ 2 ^ 52 * 2 ^ b * scaled e f := by
      calc 2 ^ 1074 * 2 ^ 1074 = 2 ^ 52 * 2 ^ b * (2 ^ 53 * 2 ^ a) := by
            simp only [← Nat.pow_add]
            congr 1
            omega
        _ ≤ 2 ^ 52 * 2 ^ b * scaled e f := Nat.mul_le_mul_left _ (not_lt.mp hge)
    exact h.not_ge (roundNearest_le h0 (Rep.of_shifted (by norm_num) (by omega)) hle)
  · refine lt_roundNearest_quotient _ _ a b ?_ h0 (scaled_le_of_lt h) (by omega)
    rw [show 40564819207303340847894502572032 = 2 ^ 105 by norm_num]
    simp only [← Nat.pow_add]
    congr 1
    omega

/-- The two bounds on a finite `alpha` above zero: its rounded reciprocal is at most `1.0` and above `2^-54`. -/
theorem reciprocal_bounds_iff {e : Fin 2047} {f : BitVec 52} (h0 : 0 < scaled e f) :
    (roundNearest (2 ^ 1074 * 2 ^ 1074) (scaled e f) ≤ 2 ^ 1074 ∧
      2 ^ 1020 < roundNearest (2 ^ 1074 * 2 ^ 1074) (scaled e f)) ↔
    (2 ^ 1074 ≤ scaled e f ∧ scaled e f < 2 ^ 1128) := by
  rw [← not_lt, lt_rounded_reciprocal_iff (j := 1074) (by norm_num) (by norm_num) (by norm_num) h0, not_lt,
    lt_rounded_reciprocal_iff (j := 1128) (by norm_num) (by norm_num) (by norm_num) h0]

/-- The test on `1 - 1/alpha`, for a finite `alpha` above zero: the reciprocal overflows only below `1.0`. -/
theorem thetaOk_alpha_fin {e : Fin 2047} {f : BitVec 52} (h0 : 0 < scaled e f) :
    thetaOk (fsub F64.one (fdiv F64.one (.fin false e f))) = true ↔
      2 ^ 1074 ≤ scaled e f ∧ scaled e f < 2 ^ 1128 := by
  rw [← reciprocal_bounds_iff h0, fdiv_fin h0.ne', scaled_one, bne_self_eq_false]
  by_cases hov : overflowUnits * scaled e f ≤ 2 ^ 1074 * 2 ^ 1074
  · have hbig := (roundNearest_overflow _ _ h0).mpr hov
    rw [roundScaled_overflow false _ _ h0 hov]
    refine iff_of_false Bool.false_ne_true fun ⟨hle, _⟩ => ?_
    exact absurd (hbig.trans hle) (Nat.pow_lt_pow_right Nat.one_lt_two (by norm_num)).not_ge
  · obtain ⟨e', f', hfin, hscaled⟩ := roundScaled_finite false _ _ h0 (not_le.mp hov)
    rw [hfin, thetaOk_one_fsub, hscaled]

/-- `1 - 1/alpha` for `alpha` a zero is an infinity, and fails the test. -/
theorem not_thetaOk_alpha_zero (n : Bool) : thetaOk (fsub F64.one (fdiv F64.one (.fin n 0 0#52))) = false := by
  cases n <;> decide +kernel

/-- `1 - 1/alpha` for `alpha` an infinity is `1.0`, and fails the test. -/
theorem not_thetaOk_alpha_inf (n : Bool) : thetaOk (fsub F64.one (fdiv F64.one (.inf n))) = false := by
  cases n <;> decide +kernel

/-- `1 - 1/alpha` for a negative `alpha` is not below `1.0`. -/
theorem not_thetaOk_alpha_neg {e : Fin 2047} {f : BitVec 52} (h0 : scaled e f ≠ 0) :
    thetaOk (fsub F64.one (fdiv F64.one (.fin true e f))) = false := by
  rw [fdiv_fin h0]
  have hpos := Nat.pos_of_ne_zero h0
  by_cases hov : overflowUnits * scaled e f ≤ scaled 1023 0#52 * 2 ^ 1074
  · rw [roundScaled_overflow _ _ _ hpos hov]
    rfl
  · obtain ⟨e', f', hfin, -⟩ := roundScaled_finite (false != true) _ _ hpos (not_le.mp hov)
    rw [hfin]
    exact not_thetaOk_one_fsub_true e' f'

/-- A finite magnitude is below that of `2^54` exactly where the pattern without its sign bit is. -/
theorem scaled_lt_two_pow_54_iff {e : Fin 2047} {f : BitVec 52} :
    scaled e f < 2 ^ 1128 ↔ e.val * 2 ^ 52 + f.toNat < 0x4350000000000000 := by
  rw [show 2 ^ 1128 = scaled 1077 0#52 by decide +kernel, scaled_lt_iff]
  rfl

/-- Settles O37: only a finite `alpha` above zero can pass, and its bounds in magnitude are bounds on its pattern. -/
theorem alphaPatterns : Obligations.AlphaPatterns := by
  intro w
  obtain ⟨n, e, f, hw, hn⟩ | ⟨hbig, hw⟩ := f64OfBits_cases w
  · have he := e.isLt
    have hf := f.isLt
    rw [hw, hn]
    by_cases h0 : scaled e f = 0
    · obtain ⟨rfl, rfl⟩ := scaled_eq_zero.mp h0
      rw [show (0 : BitVec 52) = 0#52 from rfl, not_thetaOk_alpha_zero]
      refine iff_of_false Bool.false_ne_true ?_
      cases n <;> decide
    cases n with
    | true =>
      rw [not_thetaOk_alpha_neg h0]
      refine iff_of_false Bool.false_ne_true ?_
      simp only [Bool.toNat_true]
      omega
    | false =>
      rw [thetaOk_alpha_fin (Nat.pos_of_ne_zero h0), ← not_lt, scaled_lt_one_iff, scaled_lt_two_pow_54_iff, not_lt,
        Bool.toNat_false, Nat.zero_mul, Nat.zero_add]
  · have hbad : thetaOk (fsub F64.one (fdiv F64.one (f64OfBits w))) = false := by
      obtain ⟨n, hw⟩ | hw := hw
      · rw [hw, not_thetaOk_alpha_inf]
      · rw [hw]
        rfl
    rw [hbad]
    refine iff_of_false Bool.false_ne_true ?_
    omega

end Sys2Proof.Machine
end

section
/-! SUPPORT. The uniform context `theta = 0`: the statement UniformContext (42_zipf.md R143). -/

namespace Sys2Proof.Machine

set_option exponentiation.threshold 3000

/-- The sum of two finite data that are not negative, the second one positive. -/
theorem fadd_fin_false {e e' : Fin 2047} {f f' : BitVec 52} (h : 0 < scaled e' f') :
    fadd (.fin false e f) (.fin false e' f') = roundScaled false (scaled e f + scaled e' f') 1 := by
  have hsum : scaledInt false e f + scaledInt false e' f' = ((scaled e f + scaled e' f' : Nat) : Int) :=
    (Nat.cast_add _ _).symm
  rw [fadd_fin (by rw [hsum]; omega), hsum, Int.natAbs_natCast, decide_eq_false (by omega)]

/-- Counting up by one is exact up to `2^53`. -/
theorem f64OfU64_fadd_one {k : Nat} (hk : k ≤ 2 ^ 53) : fadd (f64OfU64 k) F64.one = f64OfU64 (k + 1) := by
  obtain ⟨e, f, hfin, hscaled⟩ := f64OfU64_exact hk
  rw [hfin, fadd_fin_false (scaled_one ▸ Nat.two_pow_pos _), hscaled, scaled_one, f64OfU64_eq, Nat.add_mul, Nat.one_mul]

/-- A sum of ones counts its terms, up to `2^53` (R143). -/
theorem zetaSum_uniform {n : Nat} (hn : n ≤ 2 ^ 53) : zetaSum config.pow64 F64.zero n = f64OfU64 n := by
  induction n with
  | zero => rw [zetaSum]; decide +kernel
  | succ n ih => rw [zetaSum, ih (by omega), config_pow64, pow64_zero, f64OfU64_fadd_one (by omega)]

/-- A value not above a representable magnitude does not overflow. -/
theorem lt_overflow_of_le_rep {k num den : Nat} (hd : 0 < den) (hk : Rep k) (h : num ≤ k * den) :
    num < overflowUnits * den := by
  by_contra hov
  have hbig := ((roundNearest_overflow num den hd).mpr (not_lt.mp hov)).trans (roundNearest_le hd hk h)
  obtain ⟨e, f, rfl⟩ := hk
  have hmax := scaled_lt e f
  omega

/-- `1 - q` for a `q` from `+0.0` to below `1.0` is finite and not zero. -/
theorem one_fsub_ne_zero {e : Fin 2047} {f : BitVec 52} (h : scaled e f < 2 ^ 1074) :
    ∃ e' f', fsub F64.one (.fin false e f) = .fin false e' f' ∧ scaled e' f' ≠ 0 := by
  have hone : Rep (2 ^ 1074) := ⟨1023, 0#52, scaled_one⟩
  have hpos : 1 * 1 ≤ 2 ^ 1074 - scaled e f := by omega
  obtain ⟨e', f', hfin, hscaled⟩ :=
    roundScaled_finite false (2 ^ 1074 - scaled e f) 1 Nat.one_pos (lt_overflow_of_le_rep Nat.one_pos hone (by omega))
  refine ⟨e', f', ?_, ?_⟩
  · rw [one_fsub_fin, if_neg h.ne, if_pos h, hfin]
  · rw [hscaled]
    exact Nat.one_le_iff_ne_zero.mp (le_roundNearest Nat.one_pos ⟨0, 1#52, rfl⟩ hpos)

/-- `2/n` is below `1.0` from `n = 3` on: before rounding it is at most three quarters. -/
theorem two_fdiv_lt_one {n : Nat} (h3 : 3 ≤ n) (hn : n ≤ 2 ^ 53) :
    ∃ e f, fdiv F64.two (f64OfU64 n) = .fin false e f ∧ scaled e f < 2 ^ 1074 := by
  obtain ⟨e, f, hfin, hscaled⟩ := f64OfU64_exact hn
  have hpos : 0 < scaled e f := by omega
  have hrep : Rep (3 * 2 ^ 1072) := Rep.of_shifted (by norm_num) (by norm_num)
  have hle : scaled 1024 0#52 * 2 ^ 1074 ≤ 3 * 2 ^ 1072 * scaled e f := by
    rw [scaled_two, hscaled]
    omega
  obtain ⟨e', f', hquot, hround⟩ :=
    roundScaled_finite (false != false) _ _ hpos (lt_overflow_of_le_rep hpos hrep hle)
  refine ⟨e', f', ?_, ?_⟩
  · rw [hfin, fdiv_fin hpos.ne', hquot, bne_self_eq_false]
  · rw [hround]
    exact (roundNearest_le hpos hrep hle).trans_lt (by norm_num)

/-- `eta` of a uniform context of three or more: a quotient of two equal numbers (R143). -/
theorem zipfEta_uniform {n : Nat} (h3 : 3 ≤ n) (hn : n ≤ 2 ^ 53) :
    zipfEta config.pow64 (f64OfU64 n) F64.one (f64OfU64 n) F64.two = F64.one := by
  obtain ⟨e, f, hquot, hlt⟩ := two_fdiv_lt_one h3 hn
  obtain ⟨e', f', hsub, hne⟩ := one_fsub_ne_zero hlt
  rw [zipfEta, config_pow64, pow64_one, hquot, hsub, fdiv_self_fin false e' f' hne]

/-- The context of either zero: the exponent of the sum is `+0.0`, so that the sum counts its terms, and that of `eta` is `1.0`,
so that no power is left open (R143). -/
theorem zipfContext_uniform {n : Word64} (hn : n.toNat ≤ 2 ^ 53) (neg : Bool) :
    zipfContext config n (.fin neg 0 0#52) =
      { valid := true
        n := n
        theta := .fin neg 0 0#52
        alphaExp := F64.one
        zetan := f64OfU64 n.toNat
        zeta2 := F64.two
        eta := zipfEta config.pow64 (f64OfU64 n.toNat) F64.one (f64OfU64 n.toNat) F64.two } := by
  have hnt : fsub F64.zero (.fin neg 0 0#52) = F64.zero := by cases neg <;> decide +kernel
  have hexp : fsub F64.one (.fin neg 0 0#52) = F64.one := by cases neg <;> decide +kernel
  have hdiv : fdiv F64.one F64.one = F64.one := by decide +kernel
  have hzeta2 : zetaTwo config.pow64 F64.zero = F64.two := by
    rw [zetaTwo_eq, config_pow64, pow64_zero]
    decide +kernel
  rw [zipfContext, hnt, hexp, hdiv, hzeta2, zetaSum_uniform hn]

/-- Settles O38: the two patterns are those of the zeros, which pass the test on `theta`. -/
theorem uniformContext : Obligations.UniformContext := by
  intro s h0 hn hzero
  obtain ⟨neg, htheta⟩ : ∃ neg, f64OfBits s.a1 = .fin neg 0 0#52 := by
    obtain h | h := hzero
    · exact ⟨false, by rw [h]; rfl⟩
    · exact ⟨true, by rw [h]; rfl⟩
  have hok : thetaOk (.fin neg 0 0#52) = true := by cases neg <;> decide +kernel
  refine ⟨_, zipfInitThetaWith_ok h0 (by rwa [htheta]), ?_⟩
  rw [setOk_zipf, setZipf_zipf, htheta, zipfContext_uniform hn]
  exact ⟨rfl, rfl, rfl, rfl, rfl, fun h3 => zipfEta_uniform h3 hn⟩

end Sys2Proof.Machine
end

section
/-! SUPPORT. The rank and the draw: the statements ZipfDrawResult, RankFormula and DrawRankRange (42_zipf.md R145, R146). -/

namespace Sys2Proof.Machine

/-- Settles O40: both commands draw one double; NEXT_F64 leaves its pattern, which reads back as the double. -/
theorem zipfDrawResult : Obligations.ZipfDrawResult := by
  intro s hg hz
  refine ⟨_, nextF64With_valid config s hg, ?_, rfl⟩
  rw [bitsRoundTrip.1]
  exact zipfDrawWith_valid config hg hz

/-- The closed form as an integer, for a finite value not below `+0.0`: the floor of either zero is 0 (R145). -/
theorem natOfF64_ffloor_of_fge {neg : Bool} {e : Fin 2047} {f : BitVec 52} (h : fge (.fin neg e f) F64.zero = true) :
    natOfF64 (ffloor (.fin neg e f)) = scaled e f / 2 ^ 1074 := by
  cases neg with
  | false => exact natOfF64_ffloor e f
  | true =>
    have h0 : scaled e f = 0 := by
      rw [fge_fin, decide_eq_true_iff, scaledInt_true, scaledInt_false, scaled_zero] at h
      omega
    obtain ⟨rfl, rfl⟩ := scaled_eq_zero.mp h0
    decide +kernel

section
variable {cfg : Config} {z : Zipf} {u : F64}

/-- The first fast path (R145). -/
theorem rank_of_lt_one (h1 : flt (fmul u z.zetan) F64.one = true) : rank cfg z u = 1 := if_pos h1

/-- The second fast path. -/
theorem rank_of_lt_zeta2 (h1 : flt (fmul u z.zetan) F64.one = false) (h2 : flt (fmul u z.zetan) z.zeta2 = true) :
    rank cfg z u = 2 :=
  (if_neg (Bool.eq_false_iff.mp h1)).trans (if_pos h2)

/-- Past the fast paths the value `v` of the closed form decides. -/
theorem rank_of_closedForm {v : F64} (h1 : flt (fmul u z.zetan) F64.one = false)
    (h2 : flt (fmul u z.zetan) z.zeta2 = false)
    (hv : fmul (f64OfU64 z.n.toNat) (cfg.pow64 (fadd (fsub (fmul z.eta u) z.eta) F64.one) z.alphaExp) = v) :
    rank cfg z u = if fge v (f64OfU64 z.n.toNat) then z.n
      else if fge v F64.zero then BitVec.ofNat 64 (min (1 + natOfF64 (ffloor v)) z.n.toNat) else 1 := by
  subst hv
  exact (if_neg (Bool.eq_false_iff.mp h1)).trans (if_neg (Bool.eq_false_iff.mp h2))

end

/-- Settles O41: one lemma per fast path, and past them the two clamps and the closed form between them, whose integer is at
most `n` and so needs no wrap. -/
theorem rankFormula : Obligations.RankFormula := by
  rintro z u _ _ v rfl rfl hv
  refine ⟨rank_of_lt_one, rank_of_lt_zeta2, fun h1 h2 => ?_⟩
  rw [rank_of_closedForm h1 h2 hv]
  refine ⟨fun hge => if_pos hge, fun neg e f hfin hlt hge => ?_, fun hlt hneg => ?_⟩
  · rw [hlt, hge, if_neg Bool.false_ne_true, if_pos rfl, BitVec.toNat_ofNat,
      Nat.mod_eq_of_lt ((Nat.min_le_right _ _).trans_lt z.n.isLt), hfin, natOfF64_ffloor_of_fge (hfin ▸ hge)]
  · rw [hlt, hneg, if_neg Bool.false_ne_true, if_neg Bool.false_ne_true]

/-- Settles O42: a draw is below `1.0`, and so a draw from a population of one takes the first fast path. -/
theorem drawRankRange : Obligations.DrawRankRange := by
  intro s hs hg hz
  obtain ⟨hn, -, hctx⟩ := hs.zipf hz
  refine ⟨_, zipfDrawWith_valid config hg hz, rank_range config s.zipf _ hn fun hone => ?_⟩
  obtain ⟨e, f, hu, hlt⟩ := nextDouble_fin config s
  have hzetan : s.zipf.zetan = F64.one := by
    rw [hctx, hone]
    exact zetaSum_one _
  rw [hzetan, hu, fmul_one_fin, flt_fin, decide_eq_true_iff, scaledInt_false, scaledInt_false, scaled_one]
  exact_mod_cast hlt

end Sys2Proof.Machine
end

section
/-! SUPPORT. The cipher: the statements CipherVectors, EncryptUnrolled and EncryptIsBijection (43_scrambler.md R171 to R173,
R176). -/

namespace Sys2Proof.Machine

/-! ### Encrypt without swaps (R173) -/

/-- One double round of the form without swaps, the step of `unrolled`. -/
def doubleRoundNoSwap (f : Word32 → Word32) (p : Vector Word32 18) (x : Word32 × Word32) (i : Fin 8) :
    Word32 × Word32 :=
  let xr := x.2 ^^^ (f x.1 ^^^ p[2 * i.val + 1])
  let xl := x.1 ^^^ (f xr ^^^ p[2 * i.val + 2])
  (xl, xr)

/-- The first `n` double rounds as a fold over their numbers. -/
theorem unrolled_eq_foldl (f : Word32 → Word32) (p : Vector Word32 18) (l r : Word32) {n : Nat} (hn : n ≤ 8) :
    unrolled f (subkey p) l r n = ((List.finRange 8).take n).foldl (doubleRoundNoSwap f p) (l ^^^ p[0], r) := by
  induction n with
  | zero => rw [unrolled, subkey_eq p (by omega), List.take_zero, List.foldl_nil]
  | succ n ih =>
    rw [unrolled, ih (by omega), subkey_eq p (by omega), subkey_eq p (by omega),
      List.take_succ_eq_append_getElem (by rw [List.length_finRange]; omega), List.foldl_append, List.getElem_finRange]
    rfl

/-- Encrypt of the decided configuration (R172, R173). -/
theorem encrypt_config (t : Tables) (v : Word64) : encrypt config t v =
    joinHalves .highIsA (classicalRounds (feistelF config t) t.p (hi32 v, lo32 v)) := rfl

/-- Settles O48: the rounds are the form without swaps, whose subkeys by number are those of the table. -/
theorem encryptUnrolled : Obligations.EncryptUnrolled := by
  intro t v
  rw [encrypt_config, classicalRounds_eq, unrolled_eq_foldl _ _ _ _ le_rfl,
    List.take_of_length_le (le_of_eq List.length_finRange)]
  rfl

/-! ### The inverse (R176) -/

/-- The subkeys in reverse order. -/
def reverseSubkeys (p : Vector Word32 18) : Vector Word32 18 := Vector.ofFn (fun i : Fin 18 => p[17 - i.val])

/-- Reversing the subkeys twice. -/
theorem reverseSubkeys_reverseSubkeys (p : Vector Word32 18) : reverseSubkeys (reverseSubkeys p) = p := by
  refine Vector.ext fun i hi => ?_
  simp only [reverseSubkeys, Vector.getElem_ofFn, Nat.sub_sub_self (show i ≤ 17 by omega)]

/-- Encrypt with the subkeys in reverse order undoes Encrypt. -/
theorem encrypt_reverseSubkeys {cfg : Config} (h : cfg.roundForm = classicalRounds) (t : Tables) (v : Word64) :
    encrypt cfg { t with p := reverseSubkeys t.p } (encrypt cfg t v) = v := by
  rw [encrypt, encrypt, feistelF_p, h, split_join, reverseSubkeys, classicalRounds_reverse, join_split]

/-- Settles O49: Encrypt under the reversed subkeys is an inverse on both sides, for reversing is its own inverse. -/
theorem encryptIsBijection : Obligations.EncryptIsBijection := by
  intro cfg t h
  have hright := encrypt_reverseSubkeys h { t with p := reverseSubkeys t.p }
  rw [reverseSubkeys_reverseSubkeys] at hright
  exact ⟨Function.bijective_iff_has_inverse.mpr ⟨_, encrypt_reverseSubkeys h t, hright⟩, encrypt_reverseSubkeys h t⟩

/-! ### Worked values (R171, R173) -/

/-- Settles O50: each value is evaluated. -/
theorem cipherVectors : Obligations.CipherVectors :=
  ⟨by decide +kernel, by decide +kernel, by decide +kernel, by decide +kernel⟩

end Sys2Proof.Machine
end

section
/-! SUPPORT. The key schedule and the two commands: the statements KeyedTablesAlternate, ScheduleIsChained, FirstSubkeys,
RekeyResult and ScrambleResult (43_scrambler.md R174, R175). -/

namespace Sys2Proof.Machine

/-! ### Steps 1 and 2 of the schedule (R174) -/

/-- Settles O44: the S-boxes are left as they are, and the key word of a subkey is a half of the key. -/
theorem keyedTablesAlternate : Obligations.KeyedTablesAlternate := by
  refine fun k => ⟨rfl, fun i => ?_⟩
  rw [← keyWord_msbFirst]
  exact Vector.getElem_ofFn i.isLt

/-! ### The 521 passes (R174, step 3) -/

section
variable (cfg : Config)

/-- The number of a pass: nine over `P`, then 128 over each S-box. -/
def passNumber : Fin 9 ⊕ (Fin 4 × Fin 128) → Nat
  | .inl i => i.val
  | .inr (b, i) => 9 + 128 * b.val + i.val

/-- The passes stand in the order of their numbers. -/
theorem passNumber_passes {j : Nat} (hj : j < 521) : passNumber (passes[j]'(passes_length.symm ▸ hj)) = j := by
  rw [passes_getElem ⟨j, hj⟩]
  by_cases hp : j < 9
  · rw [dif_pos hp, passNumber]
  · rw [dif_neg hp]
    change 9 + 128 * ((j - 9) / 128) + (j - 9) % 128 = j
    omega

/-- Every pass makes the next output. -/
theorem schedulePass_output (q : Fin 9 ⊕ (Fin 4 × Fin 128)) (td : Tables × Word64) :
    (schedulePass cfg q td).2 = scheduleBlock cfg td.1 td.2 := by
  rcases q with i | ⟨b, i⟩ <;> rfl

/-- The subkeys after a pass: its output stands in the two words of its number. -/
theorem schedulePass_p (q : Fin 9 ⊕ (Fin 4 × Fin 128)) (td : Tables × Word64) (i : Fin 18) :
    (schedulePass cfg q td).1.p[i] =
      if passNumber q = i.val / 2 then halfAt (schedulePass cfg q td).2 i.val else td.1.p[i] := by
  rw [schedulePass_output]
  rcases q with a | ⟨b, a⟩
  · exact scheduleP_p cfg td a i.val i.isLt
  · rw [if_neg (by rw [passNumber]; omega)]
    rfl

/-- The S-boxes after a pass: its output stands in the two entries of its number. -/
theorem schedulePass_s (q : Fin 9 ⊕ (Fin 4 × Fin 128)) (td : Tables × Word64) (c : Fin 4) (i : Fin 256) :
    (schedulePass cfg q td).1.s[c][i] =
      if passNumber q = 9 + 128 * c.val + i.val / 2 then halfAt (schedulePass cfg q td).2 i.val else td.1.s[c][i] := by
  rw [schedulePass_output]
  rcases q with a | ⟨b, a⟩
  · rw [if_neg (by rw [passNumber]; omega)]
    rfl
  · have hnumber : passNumber (.inr (b, a)) = 9 + 128 * c.val + i.val / 2 ↔ b.val = c.val ∧ a.val = i.val / 2 := by
      rw [passNumber]
      omega
    rw [if_congr hnumber rfl rfl]
    exact scheduleS_s cfg b td a c.val c.isLt i.val i.isLt

section
variable (k : Word64) {j : Nat} (hj : j < 521)
include hj

/-- The output of pass `j`. -/
theorem afterPasses_output :
    (afterPasses cfg k (j + 1)).2 = scheduleBlock cfg (afterPasses cfg k j).1 (afterPasses cfg k j).2 := by
  rw [afterPasses_succ cfg k j (passes_length.symm ▸ hj), schedulePass_output]

/-- The subkeys after pass `j`. -/
theorem afterPasses_p (i : Fin 18) : (afterPasses cfg k (j + 1)).1.p[i] =
    if j = i.val / 2 then halfAt (afterPasses cfg k (j + 1)).2 i.val else (afterPasses cfg k j).1.p[i] := by
  rw [afterPasses_succ cfg k j (passes_length.symm ▸ hj), schedulePass_p, passNumber_passes hj]

/-- The S-boxes after pass `j`. -/
theorem afterPasses_s (c : Fin 4) (i : Fin 256) : (afterPasses cfg k (j + 1)).1.s[c][i] =
    if j = 9 + 128 * c.val + i.val / 2 then halfAt (afterPasses cfg k (j + 1)).2 i.val
    else (afterPasses cfg k j).1.s[c][i] := by
  rw [afterPasses_succ cfg k j (passes_length.symm ▸ hj), schedulePass_s, passNumber_passes hj]

end

end

/-- Settles O45: the sequences are the tables and the output after each pass; on the decided configuration an output is the
encryption of the one before. -/
theorem scheduleIsChained : Obligations.ScheduleIsChained := fun k =>
  ⟨fun j => (afterPasses config k j).1, fun j => (afterPasses config k j).2, rfl, rfl, (keySchedule_eq config k).symm,
    fun _ hj => ⟨afterPasses_output config k hj, afterPasses_p config k hj, afterPasses_s config k hj⟩⟩

/-! ### The first output stays (R174) -/

section
variable (cfg : Config)

/-- Only the first pass writes the first two subkeys. -/
theorem afterPasses_p_first (k : Word64) (i : Fin 18) (hi : i.val < 2) {n : Nat} (hpos : 1 ≤ n) (hn : n ≤ 521) :
    (afterPasses cfg k n).1.p[i] = halfAt (scheduleBlock cfg (keyedTables cfg k) 0) i.val := by
  induction n, hpos using Nat.le_induction with
  | base =>
    rw [afterPasses_p cfg k hn, if_pos (by omega), afterPasses_output cfg k hn]
    rfl
  | succ j hpos ih => rw [afterPasses_p cfg k hn, if_neg (by omega), ih (by omega)]

/-- The first two subkeys of a schedule are the halves of its first output. -/
theorem keySchedule_p_first (k : Word64) (i : Fin 18) (hi : i.val < 2) :
    (keySchedule cfg k).p[i] = halfAt (scheduleBlock cfg (keyedTables cfg k) 0) i.val := by
  rw [keySchedule_eq]
  exact afterPasses_p_first cfg k i hi (by decide) le_rfl

end

/-- The key 0 leaves the initial table as it is. -/
theorem keyedTables_zero : keyedTables config 0 = initTable := by
  have hp : (keyedTables config 0).p = initTable.p := by
    refine Vector.ext fun i hi => ?_
    obtain ⟨-, halternate⟩ := keyedTablesAlternate 0
    have hhalf : halfAt 0 i = 0 := ite_self 0
    exact (halternate ⟨i, hi⟩).trans ((congrArg _ hhalf).trans BitVec.xor_zero)
  exact congrArg (fun p => { initTable with p := p }) hp

/-- Settles O46: only the first pass writes the two words, and for the key 0 its output is the encryption of zero over the
initial table. -/
theorem firstSubkeys : Obligations.FirstSubkeys := by
  have hfirst : ∀ k : Word64, (keySchedule config k).p[0] = hi32 (encrypt config (keyedTables config k) 0) ∧
      (keySchedule config k).p[1] = lo32 (encrypt config (keyedTables config k) 0) := fun k =>
    ⟨keySchedule_p_first config k 0 (by decide), keySchedule_p_first config k 1 (by decide)⟩
  obtain ⟨-, -, -, hzero⟩ := cipherVectors
  obtain ⟨h0, h1⟩ := hfirst 0
  rw [keyedTables_zero, hzero] at h0 h1
  exact ⟨hfirst, h0, h1⟩

/-! ### REKEY and SCRAMBLE (R174, R175) -/

/-- Settles O43: the next state is read off the definition. -/
theorem rekeyResult : Obligations.RekeyResult := fun _ => rfl

/-- SCRAMBLE under a valid key. -/
theorem scrambleWith_valid (cfg : Config) {s : State} (h : s.key.valid = true) :
    scrambleWith cfg s = .next { s with err := none, r0 := encrypt cfg s.key.tables s.a0 } := if_pos h

/-- Settles O47: one lemma per value of the valid bit. -/
theorem scrambleResult : Obligations.ScrambleResult :=
  ⟨fun _ h => scrambleWith_valid config h, fun _ h => scrambleWith_invalid config h⟩

end Sys2Proof.Machine
end

section
/-! SUPPORT. Dispatch Control: the statements DispatchIsInvisible, DispatchCommands and LazyProbe (41_generator.md R127;
45_dispatch.md R197 to R200). -/

namespace Sys2Proof.Machine

/-! ### Nothing but the flag depends on the flag or on the platform's hardware (R127, R199) -/

/-- The configuration on a platform with another HW_ACCEL_PRESENT. -/
def withAccel (present : Bool) (cfg : Config) : Config := { cfg with hwAccelPresent := present }

/-- Outcomes that differ in nothing but the dispatch flag of their next states. -/
def SameButDctl (o o' : Host.Outcome State Fault Refusal) : Prop := ∀ e, mapNext (setDctl e) o = mapNext (setDctl e) o'

section
variable {cfg : Config} {present : Bool} {s : State} {d : Dctl}

/-- No error reads or writes the flag. -/
theorem sameButDctl_raiseError (c : CmdError) :
    SameButDctl (.next (raiseError c (setDctl d s))) (.next (raiseError c s)) := fun _ => by cases c <;> rfl

/-- A command that needs a context comes out the same without it, and so it is enough to look at its outcomes with it (R213). -/
theorem SameButDctl.guard {c : Bool} {o o' : Host.Outcome State Fault Refusal} (h : SameButDctl o o') :
    SameButDctl (if c then o else .next (raiseError .notInitialised (setDctl d s)))
      (if c then o' else .next (raiseError .notInitialised s)) := by
  cases c with
  | false => exact sameButDctl_raiseError .notInitialised
  | true => exact h

/-! #### The draws (R123, R124, R125) -/

/-- A refill lays down the same bytes with and without the hardware (R127). -/
theorem fillBuffer_withAccel : fillBuffer (withAccel present cfg) = fillBuffer cfg := rfl

/-- A word draw takes the same word and moves the generator alike. -/
theorem nextWord_withAccel : (nextWord (withAccel present cfg) (setDctl d s)).1 = (nextWord cfg s).1 ∧
    (nextWord (withAccel present cfg) (setDctl d s)).2.gen = (nextWord cfg s).2.gen :=
  nextWord_congr fillBuffer_withAccel (s := setDctl d s) (t := s) rfl

/-- A double draw takes the same double and moves the generator alike. -/
theorem nextDouble_withAccel : (nextDouble (withAccel present cfg) (setDctl d s)).1 = (nextDouble cfg s).1 ∧
    (nextDouble (withAccel present cfg) (setDctl d s)).2.gen = (nextDouble cfg s).2.gen :=
  nextDouble_congr fillBuffer_withAccel (s := setDctl d s) (t := s) rfl

/-- Drawing bytes takes the same bytes and moves the generator alike. -/
theorem drawBytes_withAccel (n : Nat) :
    (drawBytes (withAccel present cfg) n (setDctl d s)).1 = (drawBytes cfg n s).1 ∧
      (drawBytes (withAccel present cfg) n (setDctl d s)).2.gen = (drawBytes cfg n s).2.gen :=
  drawBytes_congr fillBuffer_withAccel (s := setDctl d s) (t := s) rfl n

/-- A command whose result is computed from a draw comes out the same where the draws agree in the value and the generator. -/
theorem sameButDctl_draw {α : Type} {w w' : α × State} (h : w.1 = w'.1 ∧ w.2.gen = w'.2.gen) (result : α → Word64)
    (hw : w.2 = { setDctl d s with gen := w.2.gen, dctl := w.2.dctl })
    (hw' : w'.2 = { s with gen := w'.2.gen, dctl := w'.2.dctl }) :
    SameButDctl (.next (setOk (setR0 (result w.1) w.2))) (.next (setOk (setR0 (result w'.1) w'.2))) := by
  obtain ⟨hvalue, hgen⟩ := h
  rw [hw, hw', hvalue, hgen]
  exact fun _ => rfl

/-! #### The writers of HOST_MEM (R58, R110, R123) -/

/-- The platform takes the same bytes at the same addresses. -/
theorem writeBytes_withAccel (m : Memory) (a : Word64) (bs : List Byte) :
    m.writeBytes (withAccel present cfg) a bs = m.writeBytes cfg a bs :=
  Memory.writeBytes_congr (cfg := withAccel present cfg) (cfg' := cfg) rfl bs m a

/-- GENERATE writes the same bytes to the same place, and stops at the same address. -/
theorem generateWith_withAccel :
    SameButDctl (generateWith (withAccel present cfg) (setDctl d s)) (generateWith cfg s) := by
  cases hv : s.gen.valid with
  | false =>
    rw [generateWith_invalid cfg hv, generateWith_invalid (withAccel present cfg) (s := setDctl d s) hv]
    exact sameButDctl_raiseError .notInitialised
  | true =>
    obtain ⟨hbytes, hgen⟩ := drawBytes_withAccel (cfg := cfg) (present := present) (s := s) (d := d) s.a1.toNat
    have hwrite : s.written.writeBytes (withAccel present cfg) s.a0
        (drawBytes (withAccel present cfg) s.a1.toNat (setDctl d s)).1 =
          s.written.writeBytes cfg s.a0 (drawBytes cfg s.a1.toNat s).1 := by rw [hbytes, writeBytes_withAccel]
    cases hm : s.written.writeBytes cfg s.a0 (drawBytes cfg s.a1.toNat s).1 with
    | error a =>
      rw [generateWith_refused cfg s hv hm,
        generateWith_refused (withAccel present cfg) (setDctl d s) hv (hwrite.trans hm)]
      exact fun _ => rfl
    | ok m =>
      rw [generateWith_valid cfg s hv hm,
        generateWith_valid (withAccel present cfg) (setDctl d s) hv (hwrite.trans hm), ← hgen]
      exact fun _ => rfl

/-- MIX writes the same bytes to the same place, and stops at the same address. -/
theorem mixWith_withAccel : SameButDctl (mixWith (withAccel present cfg) (setDctl d s)) (mixWith cfg s) := by
  have hwrite : s.written.writeBytes (withAccel present cfg) s.a1 (mixBytes (withAccel present cfg) s.a0) =
      s.written.writeBytes cfg s.a1 (mixBytes cfg s.a0) := writeBytes_withAccel s.written s.a1 (mixBytes cfg s.a0)
  cases hm : s.written.writeBytes cfg s.a1 (mixBytes cfg s.a0) with
  | error a =>
    rw [mixWith_refused hm, mixWith_refused (s := setDctl d s) (hwrite.trans hm)]
    exact fun _ => rfl
  | ok m =>
    rw [mixWith_of_written hm, mixWith_of_written (s := setDctl d s) (hwrite.trans hm)]
    exact fun _ => rfl

/-! #### The initialisers (R142, R143, R144) -/

/-- An initialisation of the Zipf context neither touches the flag nor asks for the hardware. -/
theorem zipfInit_withAccel (n : Word64) (theta : F64) :
    SameButDctl (.next (zipfInit (withAccel present cfg) n theta (setDctl d s))) (.next (zipfInit cfg n theta s)) := by
  rw [zipfInit, zipfInit]
  split_ifs
  · exact sameButDctl_raiseError .domainError
  · exact fun _ => rfl
  · exact sameButDctl_raiseError .domainError

/-- ZIPF_INIT_ALPHA initialises with the same `theta`. -/
theorem zipfInitAlphaWith_withAccel :
    SameButDctl (zipfInitAlphaWith (withAccel present cfg) (setDctl d s)) (zipfInitAlphaWith cfg s) := by
  rw [zipfInitAlphaWith_eq, zipfInitAlphaWith_eq]
  exact zipfInit_withAccel s.a0 (cfg.alphaMap (f64A1 s))

/-! #### All commands -/

/-- Every command comes out the same on the two platforms, from the two states. -/
theorem execWith_withAccel (i : Instr) :
    SameButDctl (execWith (withAccel present cfg) i (setDctl d s)) (execWith cfg i s) := by
  cases i with
  | seed => exact fun _ => rfl
  | generate => exact generateWith_withAccel
  | nextU32 =>
    exact .guard (sameButDctl_draw nextWord_withAccel (·.setWidth 64) (nextWord_state _ _) (nextWord_state cfg s))
  | nextF64 =>
    exact .guard (sameButDctl_draw nextDouble_withAccel bitsOf (nextDouble_state _ _) (nextDouble_state cfg s))
  | mix => exact mixWith_withAccel
  | zipfInitAlpha => exact zipfInitAlphaWith_withAccel
  | zipfInitTheta => exact zipfInit_withAccel s.a0 (f64A1 s)
  | zipfDraw =>
    exact .guard (sameButDctl_draw nextDouble_withAccel (rank cfg s.zipf) (nextDouble_state _ _) (nextDouble_state cfg s))
  | rekey => exact fun _ => rfl
  | scramble => exact .guard fun _ => rfl
  | disableAccel => exact fun _ => rfl
  | maybeEnableAccel => exact fun _ => rfl

end

/-- Settles O29: the commands that draw, write to HOST_MEM or initialise have a lemma each; SEED, REKEY and SCRAMBLE compute
with the same functions, and the flag's own two commands change nothing else but `STATUS.ERR`. -/
theorem dispatchIsInvisible : Obligations.DispatchIsInvisible := fun _ _ i _ _ e => execWith_withAccel i e

/-! ### The probe and the two commands (R197, R198, R200) -/

/-- A probe's answer by the two conditions of R197. -/
theorem probe_eq (cfg : Config) (d : Dctl) : probe cfg d =
    { d with mode := if d.disabled = false ∧ cfg.hwAccelPresent = true then .accelerated else .portable } := by
  simp only [probe, Bool.and_eq_true, Bool.not_eq_true']

/-- Touching an undetermined flag probes. -/
theorem touchDctl_of_undetermined (cfg : Config) {d : Dctl} (h : d.mode = .undetermined) :
    touchDctl cfg d = probe cfg d := by
  rw [touchDctl, h]

/-- A probe reads `DISABLED` alone, and leaves it, so probing again changes nothing. -/
@[simp] theorem probe_probe (cfg : Config) (d : Dctl) : probe cfg (probe cfg d) = probe cfg d := rfl

/-- A disabled flag stays portable when probed (R198). -/
@[simp] theorem probe_disabled (cfg : Config) :
    probe cfg { mode := .portable, disabled := true } = { mode := .portable, disabled := true } := rfl

/-- MAYBE_ENABLE_ACCEL at the model's own platform. -/
theorem exec_maybeEnableAccel (s : State) :
    exec .maybeEnableAccel s = .next { s with err := none, dctl := probe config s.dctl } := rfl

/-- MAYBE_ENABLE_ACCEL changes nothing after a command that ended OK with a flag that a probe leaves. -/
theorem exec_maybeEnableAccel_of_probe {s : State} (herr : s.err = none) (h : probe config s.dctl = s.dctl) :
    exec .maybeEnableAccel s = .next s := by
  rw [exec_maybeEnableAccel, h, ← herr]

/-- Settles O27: DISABLE_ACCEL writes a flag that a probe leaves, and MAYBE_ENABLE_ACCEL writes a probe's answer. -/
theorem dispatchCommands : Obligations.DispatchCommands :=
  ⟨fun _ => rfl, fun s => by rw [exec_maybeEnableAccel, probe_eq],
    fun _ => ⟨_, rfl, rfl, exec_maybeEnableAccel_of_probe rfl (probe_disabled config)⟩,
    fun s => ⟨_, rfl, exec_maybeEnableAccel_of_probe rfl (probe_probe config s.dctl)⟩⟩

/-- Settles O28: a determined flag is left, an undetermined one probed. -/
theorem lazyProbe : Obligations.LazyProbe := fun cfg d =>
  ⟨probe_eq cfg d, touchDctl_of_ne cfg, fun h => (touchDctl_of_undetermined cfg h).trans (probe_eq cfg d)⟩

end Sys2Proof.Machine
end

section
/-! SUPPORT. The outcome of a command: the statements OutcomeReported and ErrorsArePrecise (00_scope.md R17; 10_state.md R32;
60_exceptions.md R211, R213, R214). -/

namespace Sys2Proof.Machine

/-- Settles O53: an error is recorded in both fields of `STATUS`; a command that ends OK clears `ERR` and leaves
`ERR_STICKY`. -/
theorem outcomeReported : Obligations.OutcomeReported := by
  intro cfg i s t h
  obtain ⟨e, he, rfl⟩ | ⟨he, r, g, d, z, k, m, -, rfl⟩ := execWith_next h
  · rw [he]
    exact ⟨raiseError_err s e, (raiseError_errSticky s e).trans (Bool.or_true s.errSticky).symm⟩
  · rw [he]
    exact ⟨rfl, (Bool.or_false s.errSticky).symm⟩

/-- DOMAIN_ERROR clears the Zipf valid bit; any other error leaves the Zipf context (R214). -/
theorem raiseError_zipf_precise (e : CmdError) (s : State) :
    ((raiseError e s).err = some .domainError → (raiseError e s).zipf.valid = false) ∧
    ((raiseError e s).err ≠ some .domainError → (raiseError e s).zipf = s.zipf) := by
  rw [raiseError_err]
  constructor
  · intro hdom
    cases hdom
    exact raiseError_zipf_valid_domain s
  · exact fun hne => raiseError_zipf_of_ne (fun hdom => hne (congrArg some hdom)) s

/-- Settles O54: a next state with an error in `ERR` is that of the one error entry, whose effect on each field is a rule. -/
theorem errorsArePrecise : Obligations.ErrorsArePrecise := by
  intro cfg i s t h herr
  obtain ⟨e, -, rfl⟩ | ⟨-, r, g, d, z, k, m, -, rfl⟩ := execWith_next h
  · exact ⟨raiseError_errSticky s e, raiseError_a0 s e, raiseError_a1 s e, raiseError_r0 s e, raiseError_dctl s e,
      raiseError_gen s e, raiseError_key s e, raiseError_written s e, raiseError_zipf_precise e s⟩
  · exact absurd rfl herr

end Sys2Proof.Machine
end

section
/-! SUPPORT. RESET and what no other step clears: the statements OnlyResetClears and ResetAndWaitFrame (10_state.md R22, R24, R29,
R31, R32, R33; 60_exceptions.md R214; 70_reset_and_hazards.md R230, R231; logs 7 and 12). -/

namespace Sys2Proof.Machine

/-- R230's relation between the states before and after a step without RESET: four of the bits that are set stay set, and a Zipf
valid bit is lost only in DOMAIN_ERROR. -/
structure KeepsBits (s t : State) : Prop where
  gen : s.gen.valid = true → t.gen.valid = true
  key : s.key.valid = true → t.key.valid = true
  sticky : s.errSticky = true → t.errSticky = true
  disabled : s.dctl.disabled = true → t.dctl.disabled = true
  zipf : s.zipf.valid = true → t.zipf.valid = false → t.err = some .domainError

section
variable {cfg : Config} {s t : State}

/-! ### Each effect but RESET keeps the bits -/

/-- A state with the same contexts, dispatch flag and sticky bit keeps them. -/
theorem keepsBits_withPort (a b r : Word64) (is : List HostInput) (rs : List (HostReg × Word64)) (n : Nat) :
    KeepsBits s { s with a0 := a, a1 := b, r0 := r, inputs := is, replies := rs, freeCount := n } :=
  ⟨id, id, id, id, fun h h' => absurd h (Bool.eq_false_iff.mp h')⟩

/-- A host write to a 64-bit register keeps them. -/
theorem keepsBits_write64 (r : Reg64) (v : Word64) : KeepsBits s (write64 r v s) := by
  cases r <;> exact keepsBits_withPort _ _ _ _ _ _

/-- A host read keeps them. -/
theorem keepsBits_hostRead (r : HostReg) : KeepsBits s (hostRead cfg r s) := by
  rcases r with (_ | _ | _) | (_ | _ | _) <;> exact keepsBits_withPort _ _ _ _ _ _

/-- An error keeps them: it sets the sticky bit, and leaves the Zipf context unless it is DOMAIN_ERROR. -/
theorem keepsBits_raiseError (e : CmdError) : KeepsBits s (raiseError e s) where
  gen := by rw [raiseError_gen]; exact id
  key := by rw [raiseError_key]; exact id
  sticky := fun _ => raiseError_errSticky s e
  disabled := by rw [raiseError_dctl]; exact id
  zipf := by
    intro hz hz'
    by_contra hne
    rw [(raiseError_zipf_precise e s).2 hne, hz] at hz'
    cases hz'

/-- A command that ends OK keeps them: a context it writes becomes valid, and none of the three ways it may change the dispatch
flag clears `DISABLED`. -/
theorem Changes.keepsBits {i : Instr} {r : Word64} {g : Gen} {d : Dctl} {z : Zipf} {k : Key} {m : Memory}
    (hc : Changes cfg i s r g d z k m) :
    KeepsBits s { s with err := none, r0 := r, gen := g, dctl := d, zipf := z, key := k, written := m } where
  gen := by
    rcases hc.gen with rfl | ⟨-, hv, -⟩
    · exact id
    · exact fun _ => hv
  key := by
    rcases hc.key with rfl | ⟨-, rfl⟩
    · exact id
    · exact fun _ => rfl
  sticky := id
  disabled := by
    intro hs
    rcases hc.dctl with rfl | ⟨-, rfl⟩ | ⟨-, rfl⟩ | ⟨-, rfl⟩
    · exact hs
    · exact (touchDctl_disabled cfg s.dctl).trans hs
    · exact hs
    · rfl
  zipf := by
    intro hs hz
    rcases hc.zipf with rfl | ⟨-, n, theta, -, -, rfl⟩
    · exact absurd hs (Bool.eq_false_iff.mp hz)
    · cases hz

/-- A command keeps them, however it ends. -/
theorem keepsBits_execWith {i : Instr} (h : execWith cfg i s = .next t) : KeepsBits s t := by
  obtain ⟨e, -, rfl⟩ | ⟨-, r, g, d, z, k, m, hc, rfl⟩ := execWith_next h
  · exact keepsBits_raiseError e
  · exact hc.keepsBits

/-- What is kept does not depend on the inputs before the step. -/
theorem KeepsBits.of_setInputs {is : List HostInput} (h : KeepsBits (setInputs is s) t) : KeepsBits s t :=
  ⟨h.gen, h.key, h.sticky, h.disabled, h.zipf⟩

/-- A step that does not take RESET keeps them. -/
theorem keepsBits_stepWith (ht : stepWith cfg s = .next t) (hr : s.inputs.head? ≠ some .reset) : KeepsBits s t := by
  obtain ⟨-, rfl⟩ | ⟨i, rest, hin, hi⟩ := stepWith_cases ht
  · exact keepsBits_withPort _ _ _ _ _ _
  refine KeepsBits.of_setInputs (is := rest) ?_
  obtain ⟨r, v, -, rfl⟩ | ⟨w, c, -, -, hc⟩ | ⟨w, e, -, -, rfl⟩ | ⟨r, w, -, -, rfl⟩ | ⟨r, -, rfl⟩ | ⟨rfl, -⟩ := hi
  · exact keepsBits_write64 r v
  · exact keepsBits_execWith hc
  · exact keepsBits_raiseError .illegalCommand
  · exact keepsBits_withPort _ _ _ _ _ _
  · exact keepsBits_hostRead r
  · exact absurd (congrArg List.head? hin) hr

end

/-- Settles O58: one lemma per effect of a step other than RESET. -/
theorem onlyResetClears : Obligations.OnlyResetClears := by
  intro cfg s t ht hr
  obtain ⟨hgen, hkey, hsticky, hdisabled, hzipf⟩ := keepsBits_stepWith ht hr
  exact ⟨hgen, hkey, hsticky, hdisabled, hzipf⟩

/-- Settles O10: a step that takes RESET is `pulseReset` on the inputs still to come, which leaves the fields outside the core; a
step with no input is none. -/
theorem resetAndWaitFrame : Obligations.ResetAndWaitFrame :=
  ⟨fun s rest h => ⟨pulseReset (setInputs rest s), step_of_inputs h, rfl, rfl, rfl⟩, fun _ h => step_of_idle h⟩

end Sys2Proof.Machine
end
